-- ==== Sys2Proof/Word.lean ====
section
/-! DEFINITION. The word types of cpu_core: bytes (registers, memory cells, FL) and the 9-bit program counter. -/

namespace Sys2Proof

/-- A register, memory or flag byte: unsigned, 8 bits (R9, R21). -/
abbrev Byte := BitVec 8

/-- The program counter and fault_info: 9 bits (R27, R38, D10). -/
abbrev PcWord := BitVec 9

end Sys2Proof
end

