-- ==== Sys2Proof/Config.lean ====
section
/-! DEFINITION. The implementation parameters of R8: OPCODE_MAP, NOT_SOURCE, ADMIT_INC_DEC, REL_JUMPS and R_INIT, with the
mnemonics they speak of and the defaults the spec takes. A Config is plain data that State holds (log entry 1). -/

namespace Sys2Proof

/-- The 32 mnemonics, in the order of the opcode map's table (R78). -/
inductive Mnemonic where
  | hlt | ret | iret
  | push | pop | prn | pra | call | int
  | jmp | jeq | jne | jgt | jlt | jle | jge
  | inc | dec | not
  | ldi | ld | st
  | add | sub | mul | mod | cmp | and | or | xor | shl | shr
deriving DecidableEq, Repr

/-- Every mnemonic once, in the order of R78's table. -/
def Mnemonic.all : List Mnemonic :=
  [.hlt, .ret, .iret, .push, .pop, .prn, .pra, .call, .int, .jmp, .jeq, .jne, .jgt, .jlt, .jle, .jge,
   .inc, .dec, .not, .ldi, .ld, .st, .add, .sub, .mul, .mod, .cmp, .and, .or, .xor, .shl, .shr]

/-- OPCODE_MAP: the opcode byte of each mnemonic (R78). -/
structure OpcodeMap where
  (hlt ret iret : Byte)
  (push pop prn pra call int : Byte)
  (jmp jeq jne jgt jlt jle jge : Byte)
  (inc dec not : Byte)
  (ldi ld st : Byte)
  (add sub mul mod cmp and or xor shl shr : Byte)
deriving DecidableEq, Repr

/-- The byte a map gives a mnemonic. -/
def OpcodeMap.byteOf (m : OpcodeMap) : Mnemonic → Byte
  | .hlt => m.hlt   | .ret => m.ret   | .iret => m.iret
  | .push => m.push | .pop => m.pop   | .prn => m.prn | .pra => m.pra | .call => m.call | .int => m.int
  | .jmp => m.jmp   | .jeq => m.jeq   | .jne => m.jne | .jgt => m.jgt | .jlt => m.jlt   | .jle => m.jle
  | .jge => m.jge   | .inc => m.inc   | .dec => m.dec | .not => m.not
  | .ldi => m.ldi   | .ld => m.ld     | .st => m.st
  | .add => m.add   | .sub => m.sub   | .mul => m.mul | .mod => m.mod | .cmp => m.cmp   | .and => m.and
  | .or => m.or     | .xor => m.xor   | .shl => m.shl | .shr => m.shr

/-- The default OPCODE_MAP, R78's table. PRESUMED by the spec itself (the LS-8 convention, D1, G2; log entry 2). -/
def OpcodeMap.ls8 : OpcodeMap where
  hlt := 0x01
  ret := 0x11
  iret := 0x13
  push := 0x45
  pop := 0x46
  prn := 0x47
  pra := 0x48
  call := 0x50
  int := 0x52
  jmp := 0x54
  jeq := 0x55
  jne := 0x56
  jgt := 0x57
  jlt := 0x58
  jle := 0x59
  jge := 0x5A
  inc := 0x65
  dec := 0x66
  not := 0x69
  ldi := 0x82
  ld := 0x83
  st := 0x84
  add := 0xA0
  sub := 0xA1
  mul := 0xA2
  mod := 0xA4
  cmp := 0xA7
  and := 0xA8
  or := 0xAA
  xor := 0xAB
  shl := 0xAC
  shr := 0xAD

/-- NOT_SOURCE: the operand byte that names NOT's source register (R179, D2). -/
inductive NotSource where
  | operandA
  | operandB
deriving DecidableEq, Repr

/-- REL_JUMPS: whether JGT, JLT, JLE, JGE branch or only advance (R153, D4). -/
inductive RelJumps where
  | branch
  | advance
deriving DecidableEq, Repr

/-- The parameters a model takes as its configuration (R8). `rInit` is R_INIT, the reset values of x[0] to x[6] (R26, D7). -/
structure Config where
  opcodes     : OpcodeMap
  notSource   : NotSource
  admitIncDec : Bool
  relJumps    : RelJumps
  rInit       : Vector Byte 7
deriving DecidableEq, Repr

/-- The values R8 gives. R_INIT is OPEN there: zero is this model's DESIGN CHOICE (log entry 3). -/
def Config.default : Config where
  opcodes := .ls8
  notSource := .operandB
  admitIncDec := false
  relJumps := .branch
  rInit := #v[0, 0, 0, 0, 0, 0, 0]

end Sys2Proof
end

