-- ==== Sys2Proof/Syntax.lean ====
section
/-! DEFINITION. The instructions: one constructor per row of spec/opcode_table.json. `a` and `b` are the raw operand bytes at
pc+1 and pc+2 (R13, R73): any byte decodes (R77), and a register index is validated only where it is dereferenced (R11). -/

namespace Sys2Proof

/-- An instruction with the operand bytes its rule reads. INT carries its uninterpreted operand byte (R211); NOT carries the
byte at pc+2 besides its own operand, because its rule may read it (R71, R179). -/
inductive Instr where
  | hlt
  | ret
  | iret
  | push (a : Byte)
  | pop (a : Byte)
  | prn (a : Byte)
  | pra (a : Byte)
  | call (a : Byte)
  | int (a : Byte)
  | jmp (a : Byte)
  | jeq (a : Byte)
  | jne (a : Byte)
  | jgt (a : Byte)
  | jlt (a : Byte)
  | jle (a : Byte)
  | jge (a : Byte)
  | inc (a : Byte)
  | dec (a : Byte)
  | not (a b : Byte)
  | ldi (a b : Byte)
  | ld (a b : Byte)
  | st (a b : Byte)
  | add (a b : Byte)
  | sub (a b : Byte)
  | mul (a b : Byte)
  | mod (a b : Byte)
  | cmp (a b : Byte)
  | and (a b : Byte)
  | or (a b : Byte)
  | xor (a b : Byte)
  | shl (a b : Byte)
  | shr (a b : Byte)
deriving DecidableEq, Repr

end Sys2Proof
end

