-- ==== Sys2Proof/WellFormed.lean ====
section
/-! DEFINITION. The checks on a configuration (a legal OPCODE_MAP, R79) and on an instruction (admitted by the configuration,
R80; its dereferenced operand bytes are register indices, R11, R263), with the operand table of R76 they rest on. -/

namespace Sys2Proof

/-- The three formats (R71): the number of operand bytes is their name's digit. -/
inductive Format where
  | f0
  | f1
  | f2
deriving DecidableEq, Repr

def Format.operandCount : Format → Nat
  | .f0 => 0
  | .f1 => 1
  | .f2 => 2

/-- What an instruction does with an operand byte (R76). -/
inductive OperandUse where
  | notInterpreted
  | register
  | immediate
deriving DecidableEq, Repr

/-- The mnemonic of an instruction. -/
def Instr.mnemonic : Instr → Mnemonic
  | .hlt => .hlt | .ret => .ret | .iret => .iret
  | .push _ => .push | .pop _ => .pop | .prn _ => .prn | .pra _ => .pra | .call _ => .call | .int _ => .int
  | .jmp _ => .jmp | .jeq _ => .jeq | .jne _ => .jne | .jgt _ => .jgt | .jlt _ => .jlt | .jle _ => .jle
  | .jge _ => .jge | .inc _ => .inc | .dec _ => .dec
  | .not _ _ => .not | .ldi _ _ => .ldi | .ld _ _ => .ld | .st _ _ => .st
  | .add _ _ => .add | .sub _ _ => .sub | .mul _ _ => .mul | .mod _ _ => .mod | .cmp _ _ => .cmp
  | .and _ _ => .and | .or _ _ => .or | .xor _ _ => .xor | .shl _ _ => .shl | .shr _ _ => .shr

/-- The operand bytes an instruction carries, in the order they stand after the opcode. -/
def Instr.operands : Instr → List Byte
  | .hlt => [] | .ret => [] | .iret => []
  | .push a => [a] | .pop a => [a] | .prn a => [a] | .pra a => [a] | .call a => [a] | .int a => [a]
  | .jmp a => [a] | .jeq a => [a] | .jne a => [a] | .jgt a => [a] | .jlt a => [a] | .jle a => [a]
  | .jge a => [a] | .inc a => [a] | .dec a => [a]
  | .not a b => [a, b] | .ldi a b => [a, b] | .ld a b => [a, b] | .st a b => [a, b]
  | .add a b => [a, b] | .sub a b => [a, b] | .mul a b => [a, b] | .mod a b => [a, b] | .cmp a b => [a, b]
  | .and a b => [a, b] | .or a b => [a, b] | .xor a b => [a, b] | .shl a b => [a, b] | .shr a b => [a, b]

/-- The format column of R76. -/
def Mnemonic.format : Mnemonic → Format
  | .hlt => .f0 | .ret => .f0 | .iret => .f0
  | .push => .f1 | .pop => .f1 | .prn => .f1 | .pra => .f1 | .call => .f1 | .int => .f1
  | .jmp => .f1 | .jeq => .f1 | .jne => .f1 | .jgt => .f1 | .jlt => .f1 | .jle => .f1 | .jge => .f1
  | .inc => .f1 | .dec => .f1 | .not => .f1
  | .ldi => .f2 | .ld => .f2 | .st => .f2
  | .add => .f2 | .sub => .f2 | .mul => .f2 | .mod => .f2 | .cmp => .f2 | .and => .f2 | .or => .f2
  | .xor => .f2 | .shl => .f2 | .shr => .f2

/-- The operand_a column of R76. -/
def Mnemonic.useA : Mnemonic → OperandUse
  | .hlt => .notInterpreted | .ret => .notInterpreted | .iret => .notInterpreted | .int => .notInterpreted
  | .push => .register | .pop => .register | .prn => .register | .pra => .register | .call => .register
  | .jmp => .register | .jeq => .register | .jne => .register | .jgt => .register | .jlt => .register
  | .jle => .register | .jge => .register | .inc => .register | .dec => .register | .not => .register
  | .ldi => .register | .ld => .register | .st => .register | .add => .register | .sub => .register
  | .mul => .register | .mod => .register | .cmp => .register | .and => .register | .or => .register
  | .xor => .register | .shl => .register | .shr => .register

/-- The operand_b column of R76; NOT's entry depends on NOT_SOURCE. -/
def Mnemonic.useB (src : NotSource) : Mnemonic → OperandUse
  | .hlt => .notInterpreted | .ret => .notInterpreted | .iret => .notInterpreted
  | .push => .notInterpreted | .pop => .notInterpreted | .prn => .notInterpreted | .pra => .notInterpreted
  | .call => .notInterpreted | .int => .notInterpreted | .jmp => .notInterpreted | .jeq => .notInterpreted
  | .jne => .notInterpreted | .jgt => .notInterpreted | .jlt => .notInterpreted | .jle => .notInterpreted
  | .jge => .notInterpreted | .inc => .notInterpreted | .dec => .notInterpreted
  | .not =>
    match src with
    | .operandA => .notInterpreted
    | .operandB => .register
  | .ldi => .immediate
  | .ld => .register | .st => .register | .add => .register | .sub => .register | .mul => .register
  | .mod => .register | .cmp => .register | .and => .register | .or => .register | .xor => .register
  | .shl => .register | .shr => .register

/-- R79 leaves the operand count of INT, IRET and NOT open and fixes every other. -/
def Mnemonic.countIsFixed : Mnemonic → Bool
  | .int => false
  | .iret => false
  | .not => false
  | .hlt => true | .ret => true | .push => true | .pop => true | .prn => true | .pra => true | .call => true
  | .jmp => true | .jeq => true | .jne => true | .jgt => true | .jlt => true | .jle => true | .jge => true
  | .inc => true | .dec => true | .ldi => true | .ld => true | .st => true | .add => true | .sub => true
  | .mul => true | .mod => true | .cmp => true | .and => true | .or => true | .xor => true | .shl => true
  | .shr => true

/-- R79: "the bytes are distinct". -/
def OpcodeMap.distinctBytes (m : OpcodeMap) : Bool := decide ((Mnemonic.all.map m.byteOf).Nodup)

/-- R79: bits 7:6 of each byte equal the operand count of the mnemonic's format, where the document fixes one. -/
def OpcodeMap.countsAgree (m : OpcodeMap) : Bool :=
  Mnemonic.all.all fun k => !k.countIsFixed || (m.byteOf k).toNat / 64 == k.format.operandCount

/-- R70: an instruction has 0, 1 or 2 operand bytes, so no opcode has bits 7:6 = 3 (R74). DEDUCED for INT, IRET and NOT of
an alternative map (log entry 13). -/
def OpcodeMap.countsShort (m : OpcodeMap) : Bool :=
  Mnemonic.all.all fun k => decide ((m.byteOf k).toNat / 64 ≤ 2)

/-- A map a model may be instantiated with (R79). -/
def OpcodeMap.legal (m : OpcodeMap) : Bool := m.distinctBytes && m.countsAgree && m.countsShort

/-- R80: INC and DEC are admitted only when ADMIT_INC_DEC is true; every other mnemonic always is. -/
def Config.admits (cfg : Config) : Mnemonic → Bool
  | .inc => cfg.admitIncDec
  | .dec => cfg.admitIncDec
  | .hlt => true | .ret => true | .iret => true | .push => true | .pop => true | .prn => true | .pra => true
  | .call => true | .int => true | .jmp => true | .jeq => true | .jne => true | .jgt => true | .jlt => true
  | .jle => true | .jge => true | .not => true | .ldi => true | .ld => true | .st => true | .add => true
  | .sub => true | .mul => true | .mod => true | .cmp => true | .and => true | .or => true | .xor => true
  | .shl => true | .shr => true

/-- An instruction the configuration's decoder can produce (R80). Any operand byte is well formed (R77). -/
abbrev Instr.WellFormed (cfg : Config) (i : Instr) : Prop := cfg.admits i.mnemonic = true

/-- A register index of R11: 0 to 7. -/
abbrev isRegIndex (b : Byte) : Prop := b.toNat < 8

/-- Every operand byte the instruction may dereference as a register is one (R263 (b), (c)). A conditional jump counts as
dereferencing its operand, taken or not. -/
abbrev Instr.IndicesValid (cfg : Config) (i : Instr) : Prop :=
  (i.mnemonic.useA = .register → isRegIndex (i.operands.getD 0 0)) ∧
  (i.mnemonic.useB cfg.notSource = .register → isRegIndex (i.operands.getD 1 0))

end Sys2Proof
end

