-- ==== Sys2Proof/Decode.lean ====
section
/-! DEFINITION. The instruction decoder (R74, R77, R80, R81, R92, R93) and, after it, the encoder (R78, R86), both written
from OPCODE_MAP, and the reading of a word of spec/opcode_table.json. -/

namespace Sys2Proof

/-- Why the decoder rejects: the opcode byte is not in the admitted set (R81, R93). -/
inductive DecodeError where
  /-- The fetched opcode byte is not admitted. -/
  | unknownOpcode (op : Byte)
deriving DecidableEq, Repr

/-- The operand count, bits 7:6 of the opcode byte (R72). -/
def operandCountOf (op : Byte) : Nat := op.toNat / 64

/-- `len = op[7:6] + 1` (R74, R92). -/
def lengthOf (op : Byte) : Nat := operandCountOf op + 1

/-- OPCODE_MAP read backwards: the mnemonic of an opcode byte (R93, R97). On a map that is not legal the first mnemonic of
R78's order wins (log entry 14). -/
def OpcodeMap.mnemonicOf (m : OpcodeMap) (op : Byte) : Option Mnemonic :=
  Mnemonic.all.find? fun k => m.byteOf k == op

/-- The instruction of a mnemonic with the raw bytes at pc+1 and pc+2 (R94); a byte no rule reads is dropped. -/
def instrOf (k : Mnemonic) (a b : Byte) : Instr :=
  match k with
  | .hlt => .hlt
  | .ret => .ret
  | .iret => .iret
  | .push => .push a
  | .pop => .pop a
  | .prn => .prn a
  | .pra => .pra a
  | .call => .call a
  | .int => .int a
  | .jmp => .jmp a
  | .jeq => .jeq a
  | .jne => .jne a
  | .jgt => .jgt a
  | .jlt => .jlt a
  | .jle => .jle a
  | .jge => .jge a
  | .inc => .inc a
  | .dec => .dec a
  | .not => .not a b
  | .ldi => .ldi a b
  | .ld => .ld a b
  | .st => .st a b
  | .add => .add a b
  | .sub => .sub a b
  | .mul => .mul a b
  | .mod => .mod a b
  | .cmp => .cmp a b
  | .and => .and a b
  | .or => .or a b
  | .xor => .xor a b
  | .shl => .shl a b
  | .shr => .shr a b

/-- Decode the three fetched bytes (R93): total, and rejecting by name every opcode outside the admitted set (R80, R81). The
operand bytes never matter to whether it decodes (R77). -/
def decode (cfg : Config) (op a b : Byte) : Except DecodeError Instr :=
  match cfg.opcodes.mnemonicOf op with
  | none => .error (.unknownOpcode op)
  | some k => if cfg.admits k then .ok (instrOf k a b) else .error (.unknownOpcode op)

/-- Decode from a list of bytes, the opcode first; bytes past the list's end read as 0, as unwritten memory does (R57). -/
def decodeBytes (cfg : Config) (bs : List Byte) : Except DecodeError Instr :=
  decode cfg (bs.getD 0 0) (bs.getD 1 0) (bs.getD 2 0)

/-- The opcode byte of an instruction (R78). -/
def opcodeOf (cfg : Config) (i : Instr) : Byte := cfg.opcodes.byteOf i.mnemonic

/-- The length of a mnemonic's instructions in bytes: R74 applied to its opcode byte. -/
def Config.lenOf (cfg : Config) (k : Mnemonic) : Nat := lengthOf (cfg.opcodes.byteOf k)

/-- The bytes an assembler emits for an instruction (R78, R86): its opcode byte and the operand bytes within its length. The
byte NOT reads at pc+2 is no part of its encoding (R71). On an alternative map that gives an instruction more operand
bytes than it carries, the rest are 0. -/
def encode (cfg : Config) (i : Instr) : List Byte :=
  (opcodeOf cfg i :: (i.operands ++ [0, 0])).take (cfg.lenOf i.mnemonic)

/-- Byte k of a table word of nbits bits, counted from the instruction's first byte. spec/opcode_table.json writes a row's
bytes as one number, first byte highest (PUSH is 0x45 in bits 15:8); a byte beyond the row's bits is 0 (log entry 6). -/
def tableByte (nbits w k : Nat) : Byte :=
  if 8 * (k + 1) ≤ nbits then BitVec.ofNat 8 (w / 2 ^ (nbits - 8 * (k + 1))) else 0

/-- The configuration under which every row of the table decodes: the default map with INC and DEC admitted (R80). -/
def Config.wholeTable : Config := { Config.default with admitIncDec := true }

/-- The instruction the decoder reads from a word numbered as spec/opcode_table.json numbers it. -/
def decodeTableWord (nbits w : Nat) : Option Instr :=
  match decode Config.wholeTable (tableByte nbits w 0) (tableByte nbits w 1) (tableByte nbits w 2) with
  | .ok i => some i
  | .error _ => none

end Sys2Proof
end

