-- ==== Sys2Proof/Machine/State.lean ====
section
/-! DEFINITION. The architectural state of R20 as plain data, with the implementation parameters the model is instantiated
with (R8), and the state after reset (R251). -/

namespace Sys2Proof.Machine

open Sys2Proof

/-- The kind of an output event (R10, R33): DEC from PRN, CHR from PRA. -/
inductive OutKind where
  | dec
  | chr
deriving DecidableEq, Repr

/-- An output event (R33): a kind and the register's byte. -/
structure OutEvent where
  kind : OutKind
  byte : Byte
deriving DecidableEq, Repr

/-- The run state (R30). -/
inductive RunState where
  | idle
  | running
  | halted
  | faulted
deriving DecidableEq, Repr

/-- Why a core halted (R31): by HLT or by a MOD with a zero divisor. -/
inductive HaltCause where
  | hlt
  | modZero
deriving DecidableEq, Repr

/-- A fault of the spec with its info (R31, R220): the machine goes to Faulted, which is a next state of the model. -/
inductive FaultCause where
  /-- OutOfRange(mem, addr): a fetch address above 255 (R221). -/
  | outOfRangeMem (addr : PcWord)
  /-- OutOfRange(reg, byte): an operand byte of 8 or more used as a register index (R222). -/
  | outOfRangeReg (byte : Byte)
  /-- UnknownOpcode(op): an opcode byte outside the admitted set (R223). -/
  | unknownOpcode (op : Byte)
deriving DecidableEq, Repr

/-- The stop cause (R31). -/
inductive StopCause where
  | none
  | halt (cause : HaltCause)
  | fault (cause : FaultCause)
deriving DecidableEq, Repr

/-- The 256 byte cells (R32, R50): the cells that do not hold 0, as (address, byte), addresses strictly rising. An unlisted
cell reads 0, its reset content (R57). -/
abbrev Memory := List Host.Cell

/-- The machine's state (R20). -/
structure State where
  /-- The parameters of R8. The model's own field: nothing the machine does writes it (log entry 1). -/
  cfg  : Config
  /-- The general registers; x[7] is the stack pointer (R21, R22). -/
  x    : Vector Byte 8
  /-- The program counter (R27). -/
  pc   : PcWord
  /-- The flags register: E bit 0, G bit 1, L bit 2 (R28). -/
  fl   : Byte
  /-- The interrupt-enable flag, storage only (R29). -/
  ie   : Bool
  /-- The memory (R32). -/
  mem  : Memory
  /-- The run state (R30). -/
  run  : RunState
  /-- The stop cause (R31). -/
  stop : StopCause
  /-- The output events so far, oldest first (R33). -/
  out  : List OutEvent
deriving DecidableEq, Repr

/-- The load-time errors of the host side (R225, R258). Only the host functions of Machine/Loader.lean and
Machine/HostOps.lean answer one; no instruction and no step does, because every fault of the core is a next state (R98).
Safe: the load is rejected whole and the core stays Idle. -/
inductive Fault where
  /-- The loader cannot open the given path (R225). Raised by hostLoadFile. Safe. -/
  | programNotFound
  /-- A non-empty line is no base-2 byte (R87, R225, D21). Raised by parseImage, hostLoadFile. Safe. -/
  | malformedInstruction
  /-- An image of more than 256 bytes (R225, R258, C12). Raised by hostLoad, hostLoadFile. Safe. -/
  | imageTooLong
deriving DecidableEq, Repr

/-- What the model has no run for. -/
inductive Refusal where
  /-- An instruction with no meaning yet; raised by exec only. Safe. -/
  | notModelled (mnemonic : String)
  /-- A start while Running, the re-entrant run of R239 and U13; raised by hostStart. Safe. -/
  | reentrantStart
  /-- A host write of memory while the core is not Idle (R59, R257, U16); raised by hostLoad and hostWrite. Safe. -/
  | hostWriteNotIdle
  /-- A host read of memory while the core is Running (R59, R257); raised by hostRead. Safe. -/
  | hostReadWhileRunning
deriving DecidableEq, Repr

/-- The answer of a step or of an instruction. -/
abbrev Result := Host.Outcome State Fault Refusal

/-- The reset value of the stack pointer, SP_RESET (R8, R26). -/
def spReset : Byte := 0xF4

/-- The state after reset for given parameters (R251): x[0] to x[6] are R_INIT, x[7] is 0xF4, every cell of memory is 0. -/
def State.resetWith (cfg : Config) : State where
  cfg := cfg
  x := cfg.rInit.push spReset
  pc := 0
  fl := 0
  ie := false
  mem := []
  run := .idle
  stop := .none
  out := []

/-- The machine right after reset, with the parameters at R8's values and R_INIT at zero (log entry 3). -/
def State.reset : State := State.resetWith Config.default

end Sys2Proof.Machine
end

