-- ==== Sys2Proof/Machine/Ops.lean ====
section
/-! DEFINITION. The named operations over registers, memory, pc and run state that every rule is written in (R10), the fetch
and decode of a step (R91 to R93), and the two ways a step stops the core: raise and halt (R98, R227). -/

namespace Sys2Proof.Machine

open Sys2Proof

/-- `u8(v) = v mod 256` (R10). -/
def u8 (v : Int) : Byte := BitVec.ofInt 8 v

/-- SP_INDEX: register 7 is the stack pointer (R8, R22). -/
def spIndex : Fin 8 := 7

/-- MEMSIZE: the number of cells (R8, R50). -/
def memSize : Nat := 256

/-! ## Registers and pc -/

/-- `x[i]` (R10). -/
def State.reg (s : State) (i : Fin 8) : Byte := s.x.get i

/-- `x[i] <- v` (R10). No register is hard-wired (R21). -/
def State.setReg (s : State) (i : Fin 8) (v : Byte) : State := { s with x := s.x.set i.val v i.isLt }

/-- The stack pointer `SP`, a name for x[7] (R10). -/
def State.sp (s : State) : Byte := s.reg spIndex

/-- `SP <- v`. -/
def State.setSp (s : State) (v : Byte) : State := s.setReg spIndex v

/-- `FL <- v` (R28). -/
def State.setFl (s : State) (v : Byte) : State := { s with fl := v }

/-- `pc <- target` for a byte target, zero-extended to 9 bits (R10, R95). -/
def State.jumpTo (s : State) (target : Byte) : State := { s with pc := target.setWidth 9 }

/-- `pc + len` for an instruction of the mnemonic, in 9 bits (R27, R96). No step reaches a pc above 253 here, so nothing
wraps (log entry 8). -/
def State.nextPc (s : State) (k : Mnemonic) : PcWord := s.pc + BitVec.ofNat 9 (s.cfg.lenOf k)

/-- The default advance (R96). -/
def State.advance (s : State) (k : Mnemonic) : State := { s with pc := s.nextPc k }

/-! ## Memory -/

/-- The canonical form: addresses strictly rising and below 256, no cell listed that holds the unlisted value 0. -/
abbrev Memory.wf (m : Memory) : Prop :=
  m.Pairwise (fun c d => c.1 < d.1) ∧ ∀ c ∈ m, c.1 < memSize ∧ c.2 ≠ 0

/-- The byte at an address; an unlisted cell holds 0 (R57). -/
def Memory.read : Memory → Nat → Byte
  | [], _ => 0
  | (k, v) :: m, a => if k < a then Memory.read m a else if k = a then v else 0

/-- List a cell, unless its byte is the unlisted value. -/
def Memory.list (a : Nat) (v : Byte) (m : Memory) : Memory := if v = 0 then m else (a, v) :: m

/-- Write one byte, keeping the canonical form. The cells at or below the address that are passed over at the place of
insertion are, in a canonical list, the old entry of the address and nothing else. -/
def Memory.write : Memory → Nat → Byte → Memory
  | [], a, v => Memory.list a v []
  | (k, w) :: m, a, v =>
    if k < a then (k, w) :: Memory.write m a v
    else Memory.list a v (((k, w) :: m).dropWhile fun c => decide (c.1 ≤ a))

/-- `MemRead(addr, 1)` with its bound check (R51). -/
def memRead (s : State) (addr : Nat) : Except FaultCause Byte :=
  if addr < memSize then .ok (s.mem.read addr) else .error (.outOfRangeMem (BitVec.ofNat 9 addr))

/-- `MemRead` at an address held in a register: the bound check cannot fail (R52). -/
def State.load (s : State) (addr : Byte) : Byte := s.mem.read addr.toNat

/-- `MemWrite` at an address held in a register: the bound check cannot fail (R51, R52). -/
def State.store (s : State) (addr v : Byte) : State := { s with mem := s.mem.write addr.toNat v }

/-! ## Output -/

/-- `emit(kind, v)` (R10, R33). -/
def State.emit (s : State) (kind : OutKind) (v : Byte) : State := { s with out := s.out ++ [⟨kind, v⟩] }

/-! ## Stopping: the machine has no trap entry (R230); a fault and a halt are the two ways to stop, and only reset undoes
them (R227) -/

/-- The state a fault leaves (R98): run and stop change and nothing else. -/
def State.faultWith (s : State) (c : FaultCause) : State := { s with run := .faulted, stop := .fault c }

/-- `raise E(info)` (R98, R230), applied to the state before the instruction: faults are precise (R12). -/
def raise (c : FaultCause) (s : State) : Result := .next (s.faultWith c)

/-- `halt(cause)` (R98, R227); the default advance follows in the instruction's own meaning (R96). -/
def State.haltWith (s : State) (c : HaltCause) : State := { s with run := .halted, stop := .halt c }

/-! ## Fetch and decode -/

/-- The three bytes the fetch unit latches for one step (R36, R91). They do not survive the step. -/
structure Latches where
  op : Byte
  a  : Byte
  b  : Byte
deriving DecidableEq, Repr

/-- The fetch (R91): three reads in order, each with its bound check, the addresses computed without wrap. -/
def fetch (s : State) : Except FaultCause Latches :=
  match memRead s s.pc.toNat with
  | .error c => .error c
  | .ok op =>
    match memRead s (s.pc.toNat + 1) with
    | .error c => .error c
    | .ok a =>
      match memRead s (s.pc.toNat + 2) with
      | .error c => .error c
      | .ok b => .ok ⟨op, a, b⟩

/-- The decode of fetched bytes (R93); it comes after the three reads (R228). -/
def decodeLatches (cfg : Config) (l : Latches) : Except FaultCause Instr :=
  match decode cfg l.op l.a l.b with
  | .ok i => .ok i
  | .error (.unknownOpcode op) => .error (.unknownOpcode op)

/-- Fetch and decode: the instruction the step executes, or the fault it raises first (R97, R228). -/
def fetchInstr (s : State) : Except FaultCause Instr :=
  match fetch s with
  | .error c => .error c
  | .ok l => decodeLatches s.cfg l

/-- A step asked for while the core is Idle, Halted or Faulted. The spec has no step there and the state is unchanged (R30,
R90): DESIGN CHOICE, the model answers the same state (log entry 4). -/
def restStep (s : State) : Result := .next s

/-! ## Placing an instruction, for State.withFetchWord (log entry 5) -/

/-- Write a byte if the address exists. -/
def State.place (s : State) (addr : Nat) (v : Byte) : State :=
  if addr < memSize then { s with mem := s.mem.write addr v } else s

/-- The parameters under which the opcode byte is admitted: INC and DEC need ADMIT_INC_DEC (R80); nothing else changes. -/
def admitting (cfg : Config) (op : Byte) : Config :=
  if op = cfg.opcodes.inc ∨ op = cfg.opcodes.dec then { cfg with admitIncDec := true } else cfg

/-- The state with the three bytes stored where the fetch reads them, the core Running and the opcode admitted. -/
def State.placeInstr (s : State) (op a b : Byte) : State :=
  { ((s.place s.pc.toNat op).place (s.pc.toNat + 1) a).place (s.pc.toNat + 2) b with
    cfg := admitting s.cfg op
    run := .running
    stop := .none }

end Sys2Proof.Machine
end

