-- ==== Sys2Proof/Machine/Operands.lean ====
section
/-! DEFINITION. The operand forms (R75): a register operand is validated where it is dereferenced (R11), before any write of
its instruction (R12). Immediates are raw bytes and memory operands are State.load and State.store at a register's value. -/

namespace Sys2Proof.Machine

open Sys2Proof

/-- `i <- RegIdx(b)` (R11): an operand byte of 8 or more raises OutOfRange(reg, b); it is never masked (R24, C1). `s` is the
state before the instruction, so a fault leaves it as it was (R12). -/
def withReg (b : Byte) (s : State) (k : Fin 8 → Result) : Result :=
  if h : b.toNat < 8 then k ⟨b.toNat, h⟩ else raise (.outOfRangeReg b) s

/-- `i <- RegIdx(a); j <- RegIdx(b)`: operand_a is validated first (R12, R228, D11). -/
def withRegs (a b : Byte) (s : State) (k : Fin 8 → Fin 8 → Result) : Result :=
  withReg a s fun i => withReg b s fun j => k i j

end Sys2Proof.Machine
end

