-- ==== Sys2Proof/Machine/Flags.lean ====
section
/-! DEFINITION. The flags register (R28): its three bits, the value CMP writes (R183), and the conditions of the conditional
jumps (R151 to R157). -/

namespace Sys2Proof.Machine

open Sys2Proof

/-- `FL.E = FL[0]` (R10). -/
def flagE (fl : Byte) : Bool := fl.getLsbD 0

/-- `FL.G = FL[1]` (R10). -/
def flagG (fl : Byte) : Bool := fl.getLsbD 1

/-- `FL.L = FL[2]` (R10). -/
def flagL (fl : Byte) : Bool := fl.getLsbD 2

/-- The whole FL that CMP writes (R183): an unsigned three-way comparison. -/
def compareFlags (u v : Byte) : Byte :=
  if u = v then 0b00000001
  else if u.toNat < v.toNat then 0b00000100
  else 0b00000010

/-- JEQ's condition (R151). -/
def condEq (fl : Byte) : Bool := flagE fl

/-- JNE's condition (R152). -/
def condNe (fl : Byte) : Bool := !flagE fl

/-- JGT's condition (R154). -/
def condGt (fl : Byte) : Bool := flagG fl

/-- JLT's condition (R155). -/
def condLt (fl : Byte) : Bool := flagL fl

/-- JLE's condition (R156). -/
def condLe (fl : Byte) : Bool := flagL fl || flagE fl

/-- JGE's condition (R157). -/
def condGe (fl : Byte) : Bool := flagG fl || flagE fl

end Sys2Proof.Machine
end

