-- ==== Sys2Proof/Machine/AluOps.lean ====
section
/-! DEFINITION. The operations of alu_8bit on two unsigned bytes (R170 to R185): the exact mathematical result, stored as
`u8` of it. None of them touches FL; CMP's flag value is Machine/Flags.lean's compareFlags. -/

namespace Sys2Proof.Machine

open Sys2Proof

/-- R171. -/
def aluAdd (u v : Byte) : Byte := u8 (u.toNat + v.toNat : Int)

/-- R172. -/
def aluSub (u v : Byte) : Byte := u8 (u.toNat - v.toNat : Int)

/-- R173: the low byte of the product. -/
def aluMul (u v : Byte) : Byte := u8 (u.toNat * v.toNat : Int)

/-- R174, and SP + 1 of the stack logic (R185). -/
def aluInc (u : Byte) : Byte := u8 (u.toNat + 1 : Int)

/-- R175, and SP - 1 of the stack logic (R185). -/
def aluDec (u : Byte) : Byte := u8 (u.toNat - 1 : Int)

/-- R176. -/
def aluAnd (u v : Byte) : Byte := u &&& v

/-- R177. -/
def aluOr (u v : Byte) : Byte := u ||| v

/-- R178. -/
def aluXor (u v : Byte) : Byte := u ^^^ v

/-- R179: 255 - v. -/
def aluNot (v : Byte) : Byte := ~~~v

/-- R180: the whole byte v is the count. -/
def aluShl (u v : Byte) : Byte := u8 (u.toNat * 2 ^ v.toNat : Int)

/-- R181: logical, floor division by a power of two. -/
def aluShr (u v : Byte) : Byte := u8 (u.toNat / 2 ^ v.toNat : Int)

/-- R182 for a divisor that is not zero: unsigned modulo. -/
def aluMod (u v : Byte) : Byte := u8 (u.toNat % v.toNat : Int)

/-- Shared shape of the two-operand ALU instructions (R170): both operands are read, the result goes to operand_a's
register, then the default advance. -/
def binaryAlu (k : Mnemonic) (f : Byte → Byte → Byte) (a b : Byte) (s : State) : Result :=
  withRegs a b s fun i j => .next ((s.setReg i (f (s.reg i) (s.reg j))).advance k)

/-- Shared shape of INC and DEC (R174, R175). -/
def unaryAlu (k : Mnemonic) (f : Byte → Byte) (a : Byte) (s : State) : Result :=
  withReg a s fun i => .next ((s.setReg i (f (s.reg i))).advance k)

end Sys2Proof.Machine
end

