-- ==== Sys2Proof/Machine/Alu.lean ====
section
/-! DEFINITION. The ALU instructions (45_alu.md), over the operations of Machine/AluOps.lean. -/

namespace Sys2Proof.Machine

open Sys2Proof

/-- R171. -/
def execAdd (a b : Byte) (s : State) : Result := binaryAlu .add aluAdd a b s

/-- R172. -/
def execSub (a b : Byte) (s : State) : Result := binaryAlu .sub aluSub a b s

/-- R173. -/
def execMul (a b : Byte) (s : State) : Result := binaryAlu .mul aluMul a b s

/-- R174. Whether INC is admitted is the decoder's (R80). -/
def execInc (a : Byte) (s : State) : Result := unaryAlu .inc aluInc a s

/-- R175. Whether DEC is admitted is the decoder's (R80). -/
def execDec (a : Byte) (s : State) : Result := unaryAlu .dec aluDec a s

/-- R176. -/
def execAnd (a b : Byte) (s : State) : Result := binaryAlu .and aluAnd a b s

/-- R177. -/
def execOr (a b : Byte) (s : State) : Result := binaryAlu .or aluOr a b s

/-- R178. -/
def execXor (a b : Byte) (s : State) : Result := binaryAlu .xor aluXor a b s

/-- R179: with NOT_SOURCE = operand_b the source index is the byte at pc+2, with operand_a it is the destination's. -/
def execNot (a b : Byte) (s : State) : Result :=
  match s.cfg.notSource with
  | .operandB => binaryAlu .not (fun _ v => aluNot v) a b s
  | .operandA => unaryAlu .not aluNot a s

/-- R180. -/
def execShl (a b : Byte) (s : State) : Result := binaryAlu .shl aluShl a b s

/-- R181. -/
def execShr (a b : Byte) (s : State) : Result := binaryAlu .shr aluShr a b s

/-- R182: a zero divisor halts the machine, with no register written; the default advance applies to both (R96). -/
def execMod (a b : Byte) (s : State) : Result :=
  withRegs a b s fun i j =>
    if s.reg j = 0 then .next ((s.haltWith .modZero).advance .mod)
    else .next ((s.setReg i (aluMod (s.reg i) (s.reg j))).advance .mod)

/-- R183. -/
def execCmp (a b : Byte) (s : State) : Result :=
  withRegs a b s fun i j => .next ((s.setFl (compareFlags (s.reg i) (s.reg j))).advance .cmp)

end Sys2Proof.Machine
end

