-- ==== Sys2Proof/Machine/DataTransfer.lean ====
section
/-! DEFINITION. LDI, LD and ST (41_data_transfer.md). -/

namespace Sys2Proof.Machine

open Sys2Proof

/-- R110. -/
def execLdi (a b : Byte) (s : State) : Result :=
  withReg a s fun i => .next ((s.setReg i b).advance .ldi)

/-- R111. -/
def execLd (a b : Byte) (s : State) : Result :=
  withRegs a b s fun i j => .next ((s.setReg i (s.load (s.reg j))).advance .ld)

/-- R112: operand_a names the address register, operand_b the value. -/
def execSt (a b : Byte) (s : State) : Result :=
  withRegs a b s fun i j => .next ((s.store (s.reg i) (s.reg j)).advance .st)

end Sys2Proof.Machine
end

