-- ==== Sys2Proof/Machine/Jumps.lean ====
section
/-! DEFINITION. JMP and the conditional jumps (44_jumps.md): absolute, through the register operand_a names. -/

namespace Sys2Proof.Machine

open Sys2Proof

/-- A jump that is taken: `i <- RegIdx(a); pc <- x[i]`. -/
def takeJump (a : Byte) (s : State) : Result :=
  withReg a s fun i => .next (s.jumpTo (s.reg i))

/-- Shared shape of the conditional jumps: when not taken, no register is dereferenced (R151). -/
def jumpIf (k : Mnemonic) (cond : Bool) (a : Byte) (s : State) : Result :=
  if cond then takeJump a s else .next (s.advance k)

/-- Shared shape of the relational jumps: with REL_JUMPS = advance they only advance (R153). -/
def relJumpIf (k : Mnemonic) (cond : Bool) (a : Byte) (s : State) : Result :=
  match s.cfg.relJumps with
  | .branch => jumpIf k cond a s
  | .advance => .next (s.advance k)

/-- R150. -/
def execJmp (a : Byte) (s : State) : Result := takeJump a s

/-- R151. -/
def execJeq (a : Byte) (s : State) : Result := jumpIf .jeq (condEq s.fl) a s

/-- R152. -/
def execJne (a : Byte) (s : State) : Result := jumpIf .jne (condNe s.fl) a s

/-- R154. -/
def execJgt (a : Byte) (s : State) : Result := relJumpIf .jgt (condGt s.fl) a s

/-- R155. -/
def execJlt (a : Byte) (s : State) : Result := relJumpIf .jlt (condLt s.fl) a s

/-- R156. -/
def execJle (a : Byte) (s : State) : Result := relJumpIf .jle (condLe s.fl) a s

/-- R157. -/
def execJge (a : Byte) (s : State) : Result := relJumpIf .jge (condGe s.fl) a s

end Sys2Proof.Machine
end

