-- ==== Sys2Proof/Machine/Output.lean ====
section
/-! DEFINITION. PRN and PRA (42_output.md), and the host's rendering of the output events (R122). -/

namespace Sys2Proof.Machine

open Sys2Proof

/-- Shared shape of PRN and PRA: emit the register's byte, then the default advance. -/
def emitReg (k : Mnemonic) (kind : OutKind) (a : Byte) (s : State) : Result :=
  withReg a s fun i => .next ((s.emit kind (s.reg i)).advance k)

/-- R120. -/
def execPrn (a : Byte) (s : State) : Result := emitReg .prn .dec a s

/-- R121. -/
def execPra (a : Byte) (s : State) : Result := emitReg .pra .chr a s

/-- R122: what the host shows for an event sequence, for any PRN_RENDER and PRA_RENDER (D14). No state depends on it. -/
def renderOutput (prnRender praRender : Byte → List Char) (events : List OutEvent) : List Char :=
  events.flatMap fun e =>
    match e.kind with
    | .dec => prnRender e.byte
    | .chr => praRender e.byte

end Sys2Proof.Machine
end

