-- ==== Sys2Proof/Machine/Stack.lean ====
section
/-! DEFINITION. PUSH, POP, CALL and RET (43_stack.md; stack_pointer_logic). The statements execute in the written order, so a
register read after the SP update sees the updated SP (D13); the one check comes first (R12). -/

namespace Sys2Proof.Machine

open Sys2Proof

/-- `SP <- u8(SP - 1)` (R134, R185). -/
def State.decSp (s : State) : State := s.setSp (aluDec s.sp)

/-- `SP <- u8(SP + 1)` (R134, R185). -/
def State.incSp (s : State) : State := s.setSp (aluInc s.sp)

/-- R130. -/
def execPush (a : Byte) (s : State) : Result :=
  withReg a s fun i =>
    let s₁ := s.decSp
    .next ((s₁.store s₁.sp (s₁.reg i)).advance .push)

/-- R131. -/
def execPop (a : Byte) (s : State) : Result :=
  withReg a s fun i =>
    let s₁ := s.setReg i (s.load s.sp)
    .next (s₁.incSp.advance .pop)

/-- The return address CALL pushes, `pc + len` as one byte (R132; it fits because pc <= 253, log entry 8). -/
def State.returnAddress (s : State) : Byte := (s.nextPc .call).setWidth 8

/-- R132. -/
def execCall (a : Byte) (s : State) : Result :=
  withReg a s fun i =>
    let s₁ := s.decSp
    let s₂ := s₁.store s₁.sp s.returnAddress
    .next (s₂.jumpTo (s₂.reg i))

/-- R133. -/
def execRet (s : State) : Result := .next ((s.jumpTo (s.load s.sp)).incSp)

end Sys2Proof.Machine
end

