-- ==== Sys2Proof/Machine/System.lean ====
section
/-! DEFINITION. HLT, INT and IRET (46_system.md). -/

namespace Sys2Proof.Machine

open Sys2Proof

/-- R210: halt(HLT), then the default advance (D12). -/
def execHlt (s : State) : Result := .next ((s.haltWith .hlt).advance .hlt)

/-- R211: no effect but the default advance; the operand byte is not interpreted (D5). -/
def execInt (_a : Byte) (s : State) : Result := .next (s.advance .int)

/-- R212: no effect but the default advance (D5). -/
def execIret (s : State) : Result := .next (s.advance .iret)

end Sys2Proof.Machine
end

