-- ==== Sys2Proof/Machine/Step.lean ====
section
/-! DEFINITION. The step of R97, and an instruction placed where the next step fetches. -/

namespace Sys2Proof.Machine

open Sys2Proof

/-- One step (R90, R97): while Running, fetch, decode and execute one instruction, or raise the fault that comes first; in
any other run state nothing happens. -/
def step (s : State) : Host.Outcome State Fault Refusal :=
  if s.run = .running then
    match fetchInstr s with
    | .error c => raise c s
    | .ok i => exec i s
  else restStep s

/-- The state with a word of spec/opcode_table.json stored at pc, pc+1 and pc+2, the core Running, and INC and DEC admitted
if the word is one: it stands for the host's load and start (log entry 5). -/
def State.withFetchWord (s : State) (nbits w : Nat) : State :=
  s.placeInstr (tableByte nbits w 0) (tableByte nbits w 1) (tableByte nbits w 2)

end Sys2Proof.Machine
end

