-- ==== Sys2Proof/Machine/HostOps.lean ====
section
/-! DEFINITION. What the host may do to the core (R257): reset, load, write a cell, start, read a cell. The host is no agent of
the step (R255); an action outside what it may do is refused (R239, U13, U16). -/

namespace Sys2Proof.Machine

open Sys2Proof

/-- Write bytes at rising addresses. -/
def Memory.writeFrom (m : Memory) (a : Nat) : List Byte → Memory
  | [] => m
  | b :: bs => Memory.writeFrom (m.write a b) (a + 1) bs

/-- The memory a load leaves: the image from address 0 on, zeros above (R256). -/
def memoryOfImage (image : List Byte) : Memory := Memory.writeFrom [] 0 image

/-- Reset, at any time (R250): the state of R251 under the same parameters. -/
def hostReset (s : State) : Result := .next (State.resetWith s.cfg)

/-- Load an image while Idle (R256); one longer than 256 bytes is rejected whole (R258). -/
def hostLoad (image : List Byte) (s : State) : Result :=
  if s.run = .idle then
    if image.length ≤ memSize then .next { s with mem := memoryOfImage image } else .fault .imageTooLong
  else .refused .hostWriteNotIdle

/-- Write one cell while Idle (R257). -/
def hostWrite (addr v : Byte) (s : State) : Result :=
  if s.run = .idle then .next (s.store addr v) else .refused .hostWriteNotIdle

/-- Start (R252): Idle goes to Running; Halted and Faulted stay; while Running it is a contract violation (R239). -/
def hostStart (s : State) : Result :=
  match s.run with
  | .idle => .next { s with run := .running }
  | .running => .refused .reentrantStart
  | .halted => .next s
  | .faulted => .next s

/-- Read one cell, not while Running (R59). The trace record's bytes are no call of it (log entry 20). While Idle R59 allows the
read, where D17 has it only after the stop and R257 lists inspection only when Halted or Faulted: DESIGN CHOICE, R59 is followed
and the read is answered (log entry 21). -/
def hostRead (addr : Byte) (s : State) : Except Refusal Byte :=
  if s.run = .running then .error .hostReadWhileRunning else .ok (s.load addr)

/-- The host's actions on the state (R257). -/
inductive HostAction where
  | reset
  | load (image : List Byte)
  | write (addr v : Byte)
  | start
deriving DecidableEq, Repr

/-- One host action. -/
def hostStep : HostAction → State → Result
  | .reset, s => hostReset s
  | .load image, s => hostLoad image s
  | .write addr v, s => hostWrite addr v s
  | .start, s => hostStart s

/-- The core's state after a host action: one that is rejected leaves it as it was (R258). -/
def afterHost (s : State) : Result → State
  | .next t => t
  | .fault _ => s
  | .refused _ => s

end Sys2Proof.Machine
end

