-- ==== Sys2Proof/Machine/Loader.lean ====
section
/-! DEFINITION. The program image's text format (R87), its load (R225, R256, R258), and the boot order (R254). Text is a list
of characters. -/

namespace Sys2Proof.Machine

open Sys2Proof

/-- The pieces of a text between separators. -/
def splitText (sep : Char) : List Char → List (List Char)
  | [] => [[]]
  | c :: cs =>
    if c = sep then [] :: splitText sep cs
    else
      match splitText sep cs with
      | [] => [[c]]
      | l :: ls => (c :: l) :: ls

/-- White space within a line. DEDUCED from R87's example line, whose byte is followed by a space (log entry 10). -/
def isBlank (c : Char) : Bool := c == ' ' || c == '\t' || c == '\r'

/-- A text without the white space at its two ends. -/
def stripBlanks (cs : List Char) : List Char :=
  ((cs.dropWhile isBlank).reverse.dropWhile isBlank).reverse

/-- A line without its inline comment and the white space around the rest. -/
def lineContent (marker : Char) (cs : List Char) : List Char :=
  stripBlanks (cs.takeWhile fun c => c != marker)

/-- The value of a digit, up to hexadecimal. -/
def digitValue (c : Char) : Option Nat :=
  [('0', 0), ('1', 1), ('2', 2), ('3', 3), ('4', 4), ('5', 5), ('6', 6), ('7', 7), ('8', 8), ('9', 9),
   ('a', 10), ('b', 11), ('c', 12), ('d', 13), ('e', 14), ('f', 15),
   ('A', 10), ('B', 11), ('C', 12), ('D', 13), ('E', 14), ('F', 15)].lookup c

/-- The number read so far, extended by the digits of a text, if each is a digit of the base. -/
def numberFrom (base : Nat) : Nat → List Char → Option Nat
  | n, [] => some n
  | n, c :: cs =>
    match digitValue c with
    | none => none
    | some d => if d < base then numberFrom base (base * n + d) cs else none

/-- A number literal of the base that is a byte, 0 to 255. -/
def parseByte (base : Nat) (cs : List Char) : Option Byte :=
  if cs = [] then none
  else
    match numberFrom base 0 cs with
    | none => none
    | some n => if n < 256 then some (BitVec.ofNat 8 n) else none

/-- The bytes of the lines of an image (R87): comments start at '#', lines left empty are skipped, any other line is one
base-2 byte. -/
def parseLines : List (List Char) → Except Fault (List Byte)
  | [] => .ok []
  | l :: ls =>
    match lineContent '#' l with
    | [] => parseLines ls
    | c :: cs =>
      match parseByte 2 (c :: cs) with
      | none => .error .malformedInstruction
      | some b =>
        match parseLines ls with
        | .error e => .error e
        | .ok bs => .ok (b :: bs)

/-- The image a text holds (R87); one bad line rejects the whole of it (D21). -/
def parseImage (text : List Char) : Except Fault (List Byte) := parseLines (splitText '\n' text)

/-- Load the program file the host opened, none standing for a path it cannot open (R225, R258). Where more than one error
applies the spec gives no order: DESIGN CHOICE, the path first, then the text, then the run state, then the image's length,
so a text with a malformed line and more than 256 byte lines is MalformedInstruction (log entry 19). -/
def hostLoadFile (file : Option (List Char)) (s : State) : Result :=
  match file with
  | none => .fault .programNotFound
  | some text =>
    match parseImage text with
    | .error e => .fault e
    | .ok image => hostLoad image s

/-- The boot order (R254): reset, load, start. A load error raises no start (R258). -/
def hostBoot (file : Option (List Char)) (s : State) : Result :=
  match hostLoadFile file (State.resetWith s.cfg) with
  | .next t => hostStart t
  | .fault e => .fault e
  | .refused r => .refused r

/-- The eight base-2 digits of a byte, bit 7 first. -/
def byteDigits (b : Byte) : List Char :=
  [7, 6, 5, 4, 3, 2, 1, 0].map fun k => if b.getLsbD k then '1' else '0'

/-- An image as text, one byte a line, in the format parseImage reads (R87). -/
def imageText (image : List Byte) : List Char := image.flatMap fun b => byteDigits b ++ ['\n']

end Sys2Proof.Machine
end

