-- ==== Sys2Proof/Machine/Assembler.lean ====
section
/-! DEFINITION. The assembler notation of R85 and R86, as a function from a text to the bytes it stands for. It is only a way
of writing those bytes (R6); the machine does not depend on it. -/

namespace Sys2Proof.Machine

open Sys2Proof

/-- The written form of each mnemonic (R78). -/
def mnemonicText : Mnemonic → List Char
  | .hlt => ['H', 'L', 'T']
  | .ret => ['R', 'E', 'T']
  | .iret => ['I', 'R', 'E', 'T']
  | .push => ['P', 'U', 'S', 'H']
  | .pop => ['P', 'O', 'P']
  | .prn => ['P', 'R', 'N']
  | .pra => ['P', 'R', 'A']
  | .call => ['C', 'A', 'L', 'L']
  | .int => ['I', 'N', 'T']
  | .jmp => ['J', 'M', 'P']
  | .jeq => ['J', 'E', 'Q']
  | .jne => ['J', 'N', 'E']
  | .jgt => ['J', 'G', 'T']
  | .jlt => ['J', 'L', 'T']
  | .jle => ['J', 'L', 'E']
  | .jge => ['J', 'G', 'E']
  | .inc => ['I', 'N', 'C']
  | .dec => ['D', 'E', 'C']
  | .not => ['N', 'O', 'T']
  | .ldi => ['L', 'D', 'I']
  | .ld => ['L', 'D']
  | .st => ['S', 'T']
  | .add => ['A', 'D', 'D']
  | .sub => ['S', 'U', 'B']
  | .mul => ['M', 'U', 'L']
  | .mod => ['M', 'O', 'D']
  | .cmp => ['C', 'M', 'P']
  | .and => ['A', 'N', 'D']
  | .or => ['O', 'R']
  | .xor => ['X', 'O', 'R']
  | .shl => ['S', 'H', 'L']
  | .shr => ['S', 'H', 'R']

/-- A register operand, R0 to R7 (R85). -/
def parseRegister (cs : List Char) : Option Byte :=
  match cs with
  | ['R', d] =>
    match digitValue d with
    | some n => if n < 8 then some (BitVec.ofNat 8 n) else none
    | none => none
  | _ => none

/-- An immediate: decimal, 0x hexadecimal or 0b binary, 0 to 255 (R85). -/
def parseImmediate (cs : List Char) : Option Byte :=
  match cs with
  | '0' :: 'x' :: ds => parseByte 16 ds
  | '0' :: 'b' :: ds => parseByte 2 ds
  | _ => parseByte 10 cs

/-- An operand of the use R76 gives it. INT's operand is not interpreted: a register or an immediate may be written
(DESIGN CHOICE, log entry 11). -/
def parseOperand (use : OperandUse) (cs : List Char) : Option Byte :=
  match use with
  | .register => parseRegister cs
  | .immediate => parseImmediate cs
  | .notInterpreted =>
    match parseRegister cs with
    | some b => some b
    | none => parseImmediate cs

/-- The operand bytes of the operand texts, one for each use. -/
def parseOperands : List OperandUse → List (List Char) → Option (List Byte)
  | [], [] => some []
  | u :: us, t :: ts =>
    match parseOperand u (stripBlanks t), parseOperands us ts with
    | some b, some bs => some (b :: bs)
    | _, _ => none
  | [], _ :: _ => none
  | _ :: _, [] => none

/-- The operand uses of a mnemonic, as many as its opcode byte has operand bytes (R74, R76). -/
def operandUses (cfg : Config) (k : Mnemonic) : List OperandUse :=
  [k.useA, k.useB cfg.notSource].take (operandCountOf (cfg.opcodes.byteOf k))

/-- The bytes of one line (R85, R86): empty for a line with no instruction, none for one that is no assembler line. INC and DEC
assemble whatever ADMIT_INC_DEC is, a point R85 and R86 leave open (DESIGN CHOICE, log entry 11). -/
def assembleLine (cfg : Config) (line : List Char) : Option (List Byte) :=
  let body := lineContent ';' line
  let word := body.takeWhile fun c => !isBlank c
  let rest := stripBlanks (body.drop word.length)
  let texts := if rest = [] then [] else splitText ',' rest
  if body = [] then some []
  else
    match Mnemonic.all.find? fun k => mnemonicText k == word with
    | none => none
    | some k =>
      match parseOperands (operandUses cfg k) texts with
      | none => none
      | some bs => some (cfg.opcodes.byteOf k :: bs)

/-- The bytes of lines, in order. -/
def assembleLines (cfg : Config) : List (List Char) → Option (List Byte)
  | [] => some []
  | l :: ls =>
    match assembleLine cfg l, assembleLines cfg ls with
    | some bs, some cs => some (bs ++ cs)
    | _, _ => none

/-- The bytes of an assembler text (R85). -/
def assemble (cfg : Config) (text : List Char) : Option (List Byte) := assembleLines cfg (splitText '\n' text)

end Sys2Proof.Machine
end

