-- ==== Sys2Proof/Machine/Bus.lean ====
section
/-! DEFINITION. The accesses of a step as the memory_interface presents them, in order (R61), and one access on its pins for
any latency (R38, R66). -/

namespace Sys2Proof.Machine

open Sys2Proof

/-- One access (R53): a read with the byte the memory returns, or a write with the byte written. -/
inductive Access where
  | read (addr data : Byte)
  | write (addr data : Byte)
deriving DecidableEq, Repr

/-- The read of an existing cell of s. -/
def readAccess (s : State) (addr : Byte) : Access := .read addr (s.load addr)

/-- The fetch reads pc, pc+1, pc+2 up to the first address above 255, which is never presented (R38, R91). -/
def fetchAccesses (s : State) : List Access :=
  ([s.pc.toNat, s.pc.toNat + 1, s.pc.toNat + 2].takeWhile fun n => decide (n < memSize)).map
    fun n => readAccess s (BitVec.ofNat 8 n)

/-- The accesses of a form whose operand byte must be a register index; a bad index makes none (R12). -/
def onReg (b : Byte) (k : Fin 8 → List Access) : List Access :=
  if h : b.toNat < 8 then k ⟨b.toNat, h⟩ else []

/-- The execute-phase access of an instruction (R61's table): at most one. -/
def execAccesses (i : Instr) (s : State) : List Access :=
  match i with
  | .ld a b => onReg a fun _ => onReg b fun j => [readAccess s (s.reg j)]
  | .st a b => onReg a fun i => onReg b fun j => [.write (s.reg i) (s.reg j)]
  | .push a => onReg a fun i => [.write s.decSp.sp (s.decSp.reg i)]
  | .pop a => onReg a fun _ => [readAccess s s.sp]
  | .call a => onReg a fun _ => [.write s.decSp.sp s.returnAddress]
  | .ret => [readAccess s s.sp]
  | .hlt => [] | .iret => [] | .int _ => [] | .prn _ => [] | .pra _ => []
  | .jmp _ => [] | .jeq _ => [] | .jne _ => [] | .jgt _ => [] | .jlt _ => [] | .jle _ => [] | .jge _ => []
  | .inc _ => [] | .dec _ => [] | .not _ _ => [] | .ldi _ _ => []
  | .add _ _ => [] | .sub _ _ => [] | .mul _ _ => [] | .mod _ _ => [] | .cmp _ _ => []
  | .and _ _ => [] | .or _ _ => [] | .xor _ _ => [] | .shl _ _ => [] | .shr _ _ => []

/-- Every access of the step from s, in order (R60, R61). -/
def busAccesses (s : State) : List Access :=
  if s.run = .running then
    fetchAccesses s ++
      match fetchInstr s with
      | .error _ => []
      | .ok i => execAccesses i s
  else []

/-- The effect of an access on the memory: a write changes its cell, a read nothing (R55). -/
def Access.apply (m : Memory) : Access → Memory
  | .read _ _ => m
  | .write addr data => m.write addr.toNat data

/-- The memory pins in one cycle (R38). `wdata` is driven with a write only; `rdata` is taken in the ready cycle of a read. -/
structure BusCycle where
  addr  : Byte
  rd    : Bool
  wr    : Bool
  wdata : Option Byte
  ready : Bool
  rdata : Option Byte
deriving DecidableEq, Repr

/-- One cycle of an access: its request is held, and the read's byte comes with ready (R66). -/
def Access.cycle (ready : Bool) : Access → BusCycle
  | .read addr data => ⟨addr, true, false, none, ready, if ready then some data else none⟩
  | .write addr data => ⟨addr, false, true, some data, ready, none⟩

/-- An access that the memory completes after `latency` waiting cycles (R66): any latency, and no rule depends on it. -/
def Access.cycles (latency : Nat) (acc : Access) : List BusCycle :=
  List.replicate latency (acc.cycle false) ++ [acc.cycle true]

end Sys2Proof.Machine
end

