-- ==== Sys2Proof/Machine/Ports.lean ====
section
/-! DEFINITION. The output ports of R38 as functions of the state and of a step: run state, stop cause and its info (R220),
the output strobe (R33, R120, R121), the debug port and its trace record (R101, R236), and the observation of a run (R259). -/

namespace Sys2Proof.Machine

open Sys2Proof

/-- The `state` port: 0 Idle, 1 Running, 2 Halted, 3 Faulted (R38). -/
def runCode : RunState → BitVec 2
  | .idle => 0
  | .running => 1
  | .halted => 2
  | .faulted => 3

/-- The `stop_cause` port (R31, R220); codes 3 and 7 are unused. -/
def stopCode : StopCause → BitVec 3
  | .none => 0
  | .halt .hlt => 1
  | .halt .modZero => 2
  | .fault (.outOfRangeMem _) => 4
  | .fault (.outOfRangeReg _) => 5
  | .fault (.unknownOpcode _) => 6

/-- The `fault_info` port (R38, R220): the address, the byte or the opcode of a fault; 0 otherwise. -/
def faultInfo : StopCause → PcWord
  | .none => 0
  | .halt _ => 0
  | .fault (.outOfRangeMem addr) => addr
  | .fault (.outOfRangeReg byte) => byte.setWidth 9
  | .fault (.unknownOpcode op) => op.setWidth 9

/-- The `dbg_regs` port: x[i] on bits 8i+7:8i (R38). -/
def dbgRegs (s : State) : BitVec 64 :=
  s.reg 7 ++ s.reg 6 ++ s.reg 5 ++ s.reg 4 ++ s.reg 3 ++ s.reg 2 ++ s.reg 1 ++ s.reg 0

/-- The ports that show the state (R38). -/
structure Ports where
  state     : BitVec 2
  stopCause : BitVec 3
  faultInfo : PcWord
  dbgPc     : PcWord
  dbgFl     : Byte
  dbgIe     : Bool
  dbgRegs   : BitVec 64
deriving DecidableEq, Repr

/-- What those ports show of a state. -/
def State.ports (s : State) : Ports where
  state := runCode s.run
  stopCause := stopCode s.stop
  faultInfo := Sys2Proof.Machine.faultInfo s.stop
  dbgPc := s.pc
  dbgFl := s.fl
  dbgIe := s.ie
  dbgRegs := Sys2Proof.Machine.dbgRegs s

/-- The `out_kind` port: 0 DEC, 1 CHR (R38). -/
def outKindCode : OutKind → BitVec 1
  | .dec => 0
  | .chr => 1

/-- The event on `out_kind` and `out_data` while `out_valid` is strobed, for a step from s to t; none is no strobe (R38). -/
def outStrobe (s t : State) : Option OutEvent := (t.out.drop s.out.length).head?

/-- The `dbg_retire` strobe of a step from s to t: the step completed, halting included, and raised no fault (R38, R101). -/
def retires (s t : State) : Bool := s.run == .running && t.run != .faulted

/-- The facts of a trace line (R101, R236). The three bytes at pc, pc+1, pc+2 are the host's reads of memory; an address
above 255 has none. -/
structure TraceRecord where
  pc    : PcWord
  fl    : Byte
  bytes : List (Option Byte)
  regs  : Vector Byte 8
deriving DecidableEq, Repr

/-- The byte the host reads at an address, if the address exists. -/
def cellAt (s : State) (addr : Nat) : Option Byte := if addr < memSize then some (s.mem.read addr) else none

/-- The trace record of a state. R236 and D26 have the host read the three bytes through memory at each trace point,
where the core may be Running and R59 lets the host read no memory: DESIGN CHOICE, the record shows the bytes of that state in
every run state, though hostRead refuses there, and an address above 255 has none (log entry 20). -/
def traceOf (s : State) : TraceRecord where
  pc := s.pc
  fl := s.fl
  bytes := [cellAt s s.pc.toNat, cellAt s (s.pc.toNat + 1), cellAt s (s.pc.toNat + 2)]
  regs := s.x

/-- The trace point of a step from s to t: the state after the step, sampled on dbg_retire (R101, D26). -/
def tracePoint (s t : State) : Option TraceRecord := if retires s t then some (traceOf t) else none

/-- The observation of a run at its end (R259). -/
structure Observation where
  run  : RunState
  stop : StopCause
  x    : Vector Byte 8
  pc   : PcWord
  fl   : Byte
  ie   : Bool
  mem  : Vector Byte 256
  out  : List OutEvent
deriving DecidableEq, Repr

/-- What the host observes of a final state (R259). -/
def observe (s : State) : Observation where
  run := s.run
  stop := s.stop
  x := s.x
  pc := s.pc
  fl := s.fl
  ie := s.ie
  mem := Vector.ofFn fun k => s.mem.read k.val
  out := s.out

end Sys2Proof.Machine
end

