-- ==== Sys2Proof/Safety.lean ====
section
/-! DEFINITION. The terms claims are stated in: a run and its end (R99, R259), the machine's invariant, the discipline software
must keep (R263), which operand bytes an instruction dereferences (R222), and the frames of the instruction rules. -/

namespace Sys2Proof.Machine

open Sys2Proof

/-! ## Runs -/

/-- n steps, stopping at a fault or a refusal: Host.Core.run on this machine (Laws/Run.lean proves them equal). -/
def runSteps : Nat → State → Result
  | 0, s => .next s
  | n + 1, s =>
    match step s with
    | .next t => runSteps n t
    | .fault r => .fault r
    | .refused r => .refused r

/-- n steps lead from s to t. -/
def Reaches (s : State) (n : Nat) (t : State) : Prop := runSteps n s = .next t

/-- The run from s ends in t (R99): t is reached and is Halted or Faulted. -/
def EndsIn (s t : State) : Prop := ∃ n, Reaches s n t ∧ (t.run = .halted ∨ t.run = .faulted)

/-- A failed run (R259): it ends Faulted. -/
def FailedRun (s : State) : Prop := ∃ t, EndsIn s t ∧ t.run = .faulted

/-! ## The invariant -/

/-- The opcode byte is in the admitted set (R80, R97). -/
def admittedOpcode (cfg : Config) (op : Byte) : Bool :=
  match cfg.opcodes.mnemonicOf op with
  | none => false
  | some k => cfg.admits k

/-- The stop cause is the one the run state allows (R31), with the fault info R220 gives it. -/
def stopAgrees (cfg : Config) : RunState → StopCause → Bool
  | .idle, .none => true
  | .running, .none => true
  | .halted, .halt _ => true
  | .faulted, .fault (.outOfRangeMem addr) => addr == 256
  | .faulted, .fault (.outOfRangeReg byte) => decide (8 ≤ byte.toNat)
  | .faulted, .fault (.unknownOpcode op) => !admittedOpcode cfg op
  | _, _ => false

/-- FL is 0 or has exactly one of E, G, L set, and bits 7:3 are 0 (R28). -/
abbrev flLegal (fl : Byte) : Prop := fl = 0b000 ∨ fl = 0b001 ∨ fl = 0b010 ∨ fl = 0b100

/-- What holds of every state a run reaches: a legal map (R79), a canonical memory, pc at most 256 (R27), a legal FL (R28) and
a stop cause that agrees with the run state (R31). -/
abbrev State.Inv (s : State) : Prop :=
  s.cfg.opcodes.legal = true ∧ s.mem.wf ∧ s.pc.toNat ≤ 256 ∧ flLegal s.fl ∧ stopAgrees s.cfg s.run s.stop = true

/-! ## What software must do (R263) -/

/-- The byte of memory at pc + k. -/
abbrev State.byteAt (s : State) (k : Nat) : Byte := s.mem.read (s.pc.toNat + k)

/-- The next step keeps R263 (a) to (d): it stands at 253 or below, its byte is admitted, and the bytes it dereferences as
registers are register indices. -/
def Disciplined (s : State) : Prop :=
  s.pc.toNat ≤ 253 ∧
    ∃ i, decode s.cfg (s.byteAt 0) (s.byteAt 1) (s.byteAt 2) = .ok i ∧ i.IndicesValid s.cfg

/-! ## Dereferenced operands (R222) -/

/-- A conditional jump whose condition fails dereferences no register, nor does a relational jump under REL_JUMPS = advance
(R151 to R157, R153); every other instruction takes its operands. -/
def dereferences (i : Instr) (s : State) : Bool :=
  let rel (c : Bool) := c && s.cfg.relJumps == .branch
  match i with
  | .jeq _ => s.fl.getLsbD 0
  | .jne _ => !s.fl.getLsbD 0
  | .jgt _ => rel (s.fl.getLsbD 1)
  | .jlt _ => rel (s.fl.getLsbD 2)
  | .jle _ => rel (s.fl.getLsbD 2 || s.fl.getLsbD 0)
  | .jge _ => rel (s.fl.getLsbD 1 || s.fl.getLsbD 0)
  | .hlt => true | .ret => true | .iret => true
  | .push _ => true | .pop _ => true | .prn _ => true | .pra _ => true | .call _ => true | .int _ => true
  | .jmp _ => true | .inc _ => true | .dec _ => true | .not _ _ => true
  | .ldi _ _ => true | .ld _ _ => true | .st _ _ => true
  | .add _ _ => true | .sub _ _ => true | .mul _ _ => true | .mod _ _ => true | .cmp _ _ => true
  | .and _ _ => true | .or _ _ => true | .xor _ _ => true | .shl _ _ => true | .shr _ _ => true

/-- The operand_a byte the instruction dereferences as a register in s, if it does. -/
def registerA (i : Instr) (s : State) : Option Byte :=
  if dereferences i s ∧ i.mnemonic.useA = .register then i.operands[0]? else none

/-- The operand_b byte the instruction dereferences as a register in s, if it does. -/
def registerB (i : Instr) (s : State) : Option Byte :=
  if dereferences i s ∧ i.mnemonic.useB s.cfg.notSource = .register then i.operands[1]? else none

/-! ## Frames: what an instruction leaves unchanged -/

/-- The states in which the rules of 41 to 46 execute: a legal map (R79) and pc at most 253 (R91). -/
abbrev Ready (s : State) : Prop := s.cfg.opcodes.legal = true ∧ s.pc.toNat ≤ 253

/-- The operand byte b names register i (R11). -/
abbrev Names (b : Byte) (i : Fin 8) : Prop := b.toNat = i.val

/-- Every register but the listed ones is unchanged. -/
def SameRegs (except : List (Fin 8)) (s t : State) : Prop := ∀ r, r ∉ except → t.reg r = s.reg r

/-- Every byte of memory reads as before. -/
def SameMem (s t : State) : Prop := ∀ a, t.mem.read a = s.mem.read a

/-- Every byte of memory but the one at addr reads as before. -/
def SameMemBut (addr : Byte) (s t : State) : Prop := ∀ a, a ≠ addr.toNat → t.mem.read a = s.mem.read a

/-- FL, IE and the parameters are unchanged. -/
def SameFlags (s t : State) : Prop := t.fl = s.fl ∧ t.ie = s.ie ∧ t.cfg = s.cfg

/-- Run state and stop cause are unchanged. -/
def SameRun (s t : State) : Prop := t.run = s.run ∧ t.stop = s.stop

/-- pc advanced by n, without wrap (R27). -/
def Advanced (n : Nat) (s t : State) : Prop := t.pc.toNat = s.pc.toNat + n

/-- The instruction raises OutOfRange(reg, byte), and nothing but run and stop changes (R98, R222). -/
def RaisesRegister (i : Instr) (s : State) (byte : Byte) : Prop :=
  exec i s = .next { s with run := .faulted, stop := .fault (.outOfRangeReg byte) }

/-! ## The shapes of the instruction rules -/

/-- The Encoding line of a rule under the default map: its bytes. -/
def EncodesAs (i : Instr) (bytes : List Byte) : Prop := ∀ cfg : Config, cfg.opcodes = .ls8 → encode cfg i = bytes

/-- A rule with two register operands that writes the first (R170): the written value as a number, the frame, the advance by
3, and the two index faults with operand_a checked first. -/
def TwoRegisterRule (mk : Byte → Byte → Instr) (op : Byte) (result : Nat → Nat → Nat) : Prop :=
  (∀ a b, EncodesAs (mk a b) [op, a, b]) ∧
  ∀ s a b, Ready s →
    (∀ i j, Names a i → Names b j →
      ∃ t, exec (mk a b) s = .next t ∧ (t.reg i).toNat = result (s.reg i).toNat (s.reg j).toNat ∧ SameRegs [i] s t ∧
        SameMem s t ∧ SameFlags s t ∧ SameRun s t ∧ t.out = s.out ∧ Advanced 3 s t) ∧
    (8 ≤ a.toNat → RaisesRegister (mk a b) s a) ∧
    (a.toNat < 8 → 8 ≤ b.toNat → RaisesRegister (mk a b) s b)

/-- A rule with one register operand that rewrites it (R174, R175). -/
def OneRegisterRule (mk : Byte → Instr) (op : Byte) (result : Nat → Nat) : Prop :=
  (∀ a, EncodesAs (mk a) [op, a]) ∧
  ∀ s a, Ready s →
    (∀ i, Names a i →
      ∃ t, exec (mk a) s = .next t ∧ (t.reg i).toNat = result (s.reg i).toNat ∧ SameRegs [i] s t ∧
        SameMem s t ∧ SameFlags s t ∧ SameRun s t ∧ t.out = s.out ∧ Advanced 2 s t) ∧
    (8 ≤ a.toNat → RaisesRegister (mk a) s a)

/-- A conditional jump with its condition on FL (R151 to R157): taken to the register's value, a bad index faulting only then;
not taken, only the advance by 2, whatever the operand byte. -/
def ConditionalJumpRule (mk : Byte → Instr) (op : Byte) (cond : Byte → Bool) (s : State) : Prop :=
  (∀ a, EncodesAs (mk a) [op, a]) ∧
  ∀ a,
    (cond s.fl = true → ∀ i, Names a i →
      ∃ t, exec (mk a) s = .next t ∧ t.pc.toNat = (s.reg i).toNat ∧ SameRegs [] s t ∧ SameMem s t ∧ SameFlags s t ∧
        SameRun s t ∧ t.out = s.out) ∧
    (cond s.fl = true → 8 ≤ a.toNat → RaisesRegister (mk a) s a) ∧
    (cond s.fl = false →
      ∃ t, exec (mk a) s = .next t ∧ Advanced 2 s t ∧ SameRegs [] s t ∧ SameMem s t ∧ SameFlags s t ∧ SameRun s t ∧
        t.out = s.out)

end Sys2Proof.Machine
end

