-- ==== Sys2Proof/Certificates/Slice0/Obligations.lean ====
section
/-! DEFINITION. The statements for the provers, from the numbered rules of spec/. Each docstring names the rule it formalises. -/

open Sys2Proof Sys2Proof.Machine

/-! ## Encoding and decoding -/

/-- Words written out from R78 decode to the instructions they stand for, one or more of each family; 0x00, 0xA3 and, by
default, 0x65 and 0x66 do not decode (R81). -/
def Obligations.DecodesWordsOfTheOpcodeMap : Prop :=
  decodeBytes .default [0x82, 0x00, 0x08] = .ok (.ldi 0x00 0x08) ∧
  decodeBytes .default [0x84, 0x04, 0x00] = .ok (.st 0x04 0x00) ∧
  decodeBytes .default [0x47, 0x00, 0x01] = .ok (.prn 0x00) ∧
  decodeBytes .default [0x45, 0x03, 0x46] = .ok (.push 0x03) ∧
  decodeBytes .default [0x11, 0xFF, 0xFF] = .ok .ret ∧
  decodeBytes .default [0x57, 0x03, 0x00] = .ok (.jgt 0x03) ∧
  decodeBytes .default [0xA4, 0x00, 0x01] = .ok (.mod 0x00 0x01) ∧
  decodeBytes .default [0x69, 0x00, 0x01] = .ok (.not 0x00 0x01) ∧
  decodeBytes .default [0x52, 0xFF, 0x01] = .ok (.int 0xFF) ∧
  decodeBytes Config.wholeTable [0x65, 0x02, 0x00] = .ok (.inc 0x02) ∧
  decodeBytes .default [0x65, 0x02, 0x00] = .error (.unknownOpcode 0x65) ∧
  decodeBytes .default [0x66, 0x02, 0x00] = .error (.unknownOpcode 0x66) ∧
  decodeBytes .default [0x00, 0x00, 0x00] = .error (.unknownOpcode 0x00) ∧
  decodeBytes .default [0xA3, 0x00, 0x01] = .error (.unknownOpcode 0xA3)

/-- Decoding an instruction's encoding gives it back, for every instruction with every operand byte, under every legal map that
admits it: the opcode and the carried operand bytes, followed by anything. Under the default map the encoder's own bytes
decode so, NOT's source byte standing after them (R71, R78, R86). -/
def Obligations.DecodeInvertsEncode : Prop :=
  ∀ (cfg : Config) (i : Instr) (rest : List Byte), cfg.opcodes.legal = true → i.WellFormed cfg →
    decodeBytes cfg (opcodeOf cfg i :: (i.operands ++ rest)) = .ok i ∧
    (cfg.opcodes = .ls8 → i.mnemonic ≠ .not → decodeBytes cfg (encode cfg i ++ rest) = .ok i) ∧
    (cfg.opcodes = .ls8 → ∀ a b, i = .not a b → decodeBytes cfg (encode cfg i ++ b :: rest) = .ok i)

/-- What decodes is exactly the admitted set (R80, R81, R93): a decoded instruction is admitted, its opcode byte and its operand
bytes are the ones fetched; an admitted mnemonic's byte decodes to that mnemonic whatever the operand bytes (R77); any other
byte is rejected by name. -/
def Obligations.DecodesExactlyTheAdmittedSet : Prop :=
  ∀ (cfg : Config) (op a b : Byte), cfg.opcodes.legal = true →
    (∀ i, decode cfg op a b = .ok i →
      i.WellFormed cfg ∧ opcodeOf cfg i = op ∧ i.operands = [a, b].take i.operands.length) ∧
    (∀ k, cfg.admits k = true → cfg.opcodes.byteOf k = op → ∃ i, decode cfg op a b = .ok i ∧ i.mnemonic = k) ∧
    ((∀ k, cfg.admits k = true → cfg.opcodes.byteOf k ≠ op) → decode cfg op a b = .error (.unknownOpcode op))

/-- The admitted set has 30 bytes, and 32 when ADMIT_INC_DEC is true, under every legal map (R80). -/
def Obligations.AdmittedSetSize : Prop :=
  ∀ cfg : Config, cfg.opcodes.legal = true →
    ((List.range 256).filter fun n => admittedOpcode cfg (BitVec.ofNat 8 n)).length = if cfg.admitIncDec then 32 else 30

/-- Under every legal map the length is the operand count of bits 7:6 plus one and at most 3; for every mnemonic whose count
the document fixes it is that of its format (R70, R74, R79). -/
def Obligations.LengthsFollowTheFormats : Prop :=
  ∀ (cfg : Config) (k : Mnemonic), cfg.opcodes.legal = true →
    cfg.lenOf k = (cfg.opcodes.byteOf k >>> 6).toNat + 1 ∧ 1 ≤ cfg.lenOf k ∧ cfg.lenOf k ≤ 3 ∧
    (k.countIsFixed = true ∨ cfg.opcodes = .ls8 → cfg.lenOf k = k.format.operandCount + 1)

/-! ## Reset, boot and the host -/

/-- R251: every item of the state after reset, for every R_INIT; memory is cleared (R57, log entry 7). -/
def Obligations.ResetLeavesTheListedState : Prop :=
  ∀ s : State, ∃ t, hostReset s = .next t ∧ t.reg 7 = 0xF4 ∧ (∀ k : Fin 7, t.reg k.castSucc = s.cfg.rInit.get k) ∧
    t.pc = 0 ∧ t.fl = 0 ∧ t.ie = false ∧ t.run = .idle ∧ t.stop = .none ∧ stopCode t.stop = 0 ∧ t.out = [] ∧
    (∀ a, t.mem.read a = 0) ∧ t.cfg = s.cfg

/-- R252: start enters Running from Idle with nothing else changed, so after a reset the first fetch is at pc = 0; it has no
effect while Halted or Faulted, and is refused while Running (the model's choice, log entry 12). -/
def Obligations.StartRunsOnlyFromIdle : Prop :=
  ∀ s : State,
    (s.run = .idle → hostStart s = .next { s with run := .running }) ∧
    (∀ t u, hostReset s = .next t → hostStart t = .next u → u.pc = 0 ∧ u.run = .running) ∧
    (s.run = .halted ∨ s.run = .faulted → hostStart s = .next s) ∧
    (s.run = .running → hostStart s = .refused .reentrantStart)

/-- R256: after a load of at most 256 bytes mem[k] is the k-th image byte, and 0 from the image's end on; nothing else changes. -/
def Obligations.LoadPlacesTheImage : Prop :=
  ∀ (s : State) (image : List Byte), s.run = .idle → image.length ≤ 256 →
    ∃ t, hostLoad image s = .next t ∧
      (∀ k (h : k < image.length), t.mem.read k = image[k]) ∧
      (∀ k, image.length ≤ k → k ≤ 255 → t.mem.read k = 0) ∧
      t.mem.wf ∧ t = { s with mem := t.mem }

/-- R225, R258: each load error rejects the whole load; the core's state is as before and no start is raised. That a text with a
malformed line is MalformedInstruction also when it has more than 256 byte lines, an order R225 and R258 do not give, is the
model's choice (log entry 19). -/
def Obligations.LoadErrorsKeepTheCoreIdle : Prop :=
  ∀ (s : State) (file : Option (List Char)) (e : Fault), s.run = .idle →
    (file = none ∧ e = .programNotFound ∨
      (∃ text, file = some text ∧ parseImage text = .error e) ∨
      (∃ text image, file = some text ∧ parseImage text = .ok image ∧ 256 < image.length ∧ e = .imageTooLong)) →
    hostLoadFile file s = .fault e ∧ hostBoot file s = .fault e ∧ afterHost s (hostLoadFile file s) = s ∧
      (afterHost s (hostLoadFile file s)).run = .idle

/-- R87: an image written one base-2 byte a line, each line with an inline comment and followed by a comment-only line, is read
back. A text is rejected whole (D21) when any of its lines, wherever it stands, has before its comment a character that is
neither a base-2 digit nor white space (log entry 10), or base-2 digits whose value is above 255. -/
def Obligations.ImageTextIsReadBack : Prop :=
  (∀ lines : List (Byte × List Char), (∀ l ∈ lines, '\n' ∉ l.2) →
    parseImage (lines.flatMap fun l => byteDigits l.1 ++ [' ', '#'] ++ l.2 ++ ['\n', '#'] ++ l.2 ++ ['\n']) =
      .ok (lines.map (·.1))) ∧
  ∀ (lines : List (List Char)) (content comment : List Char),
    (∀ l ∈ lines, '\n' ∉ l) → content ++ comment ∈ lines → '#' ∉ content → (∀ c ∈ comment.head?, c = '#') →
    ((∃ c ∈ content, c ∉ ['0', '1', ' ', '\t', '\r']) ∨
      ((∀ c ∈ content, c = '0' ∨ c = '1') ∧ 255 < content.foldl (fun n c => 2 * n + if c = '1' then 1 else 0) 0)) →
    parseImage (['\n'].intercalate lines) = .error .malformedInstruction

/-- R239, R257, R59: what the host must not do is refused: a start while Running, a load or a write while not Idle, a read of
memory while Running (that it is refused is the model's choice, log entry 12). In any other run state a read is answered, Idle
among them (the model's choice, log entry 21). -/
def Obligations.HostViolationsAreRefused : Prop :=
  ∀ (s : State) (image : List Byte) (addr v : Byte),
    (s.run = .running → hostStep .start s = .refused .reentrantStart ∧ hostRead addr s = .error .hostReadWhileRunning) ∧
    (s.run ≠ .idle → hostStep (.load image) s = .refused .hostWriteNotIdle ∧
      hostStep (.write addr v) s = .refused .hostWriteNotIdle) ∧
    (s.run ≠ .running → hostRead addr s = .ok (s.mem.read addr.toNat))

/-! ## The step -/

/-- R97: while Running, at 253 or below, when the three bytes at pc decode to i, the step is exec of i. -/
def Obligations.StepRunsTheDecodedInstruction : Prop :=
  ∀ (s : State) (i : Instr), s.run = .running → s.pc.toNat ≤ 253 →
    decode s.cfg (s.mem.read s.pc.toNat) (s.mem.read (s.pc.toNat + 1)) (s.mem.read (s.pc.toNat + 2)) = .ok i →
    step s = exec i s

/-- R221: OutOfRange(mem) is raised exactly when pc is above 253 at the start of a step, whatever the bytes; the recorded address
is the first of pc, pc+1, pc+2 above 255, and nothing but run and stop changes. -/
def Obligations.FetchPastTheEndFaults : Prop :=
  ∀ s : State, s.run = .running →
    (∀ addr : Nat, 253 < s.pc.toNat → 256 ≤ addr →
      (addr = s.pc.toNat ∨ addr = s.pc.toNat + 1 ∧ s.pc.toNat < 256 ∨ addr = s.pc.toNat + 2 ∧ s.pc.toNat + 1 < 256) →
      step s = .next { s with run := .faulted, stop := .fault (.outOfRangeMem (BitVec.ofNat 9 addr)) }) ∧
    (∀ t addr, s.stop = .none → step s = .next t → t.stop = .fault (.outOfRangeMem addr) → 253 < s.pc.toNat)

/-- R223: UnknownOpcode is raised when, and only when, the fetched opcode byte is not admitted; the recorded value is that byte
and nothing but run and stop changes. -/
def Obligations.UnadmittedOpcodeFaults : Prop :=
  ∀ s : State, s.run = .running → s.pc.toNat ≤ 253 → s.cfg.opcodes.legal = true →
    let op := s.mem.read s.pc.toNat
    ((∀ k, s.cfg.admits k = true → s.cfg.opcodes.byteOf k ≠ op) →
      step s = .next { s with run := .faulted, stop := .fault (.unknownOpcode op) }) ∧
    (∀ t q, s.stop = .none → step s = .next t → t.stop = .fault (.unknownOpcode q) →
      q = op ∧ ∀ k, s.cfg.admits k = true → s.cfg.opcodes.byteOf k ≠ op)

/-- R222, R11, and the register part of R228, whose order (operand_a first) is decision D11: an instruction that dereferences a
bad operand_a faults on it; otherwise one that dereferences a bad operand_b faults on that; no other instruction raises
OutOfRange(reg). -/
def Obligations.BadRegisterOperandsFault : Prop :=
  ∀ (i : Instr) (s : State),
    (∀ a, registerA i s = some a → 8 ≤ a.toNat → RaisesRegister i s a) ∧
    (∀ b, registerB i s = some b → 8 ≤ b.toNat → (∀ a, registerA i s = some a → a.toNat < 8) → RaisesRegister i s b) ∧
    (∀ t, exec i s = .next t → (∀ a, registerA i s = some a → a.toNat < 8) →
      (∀ b, registerB i s = some b → b.toNat < 8) → ∀ byte, t.stop = .fault (.outOfRangeReg byte) → s.stop = t.stop)

/-- Every step answers a next state: the core's faults and halts are states (R30, R98), a core that is not
Running answers the same state (the model's choice, log entry 4), and no instruction is refused. -/
def Obligations.EveryStepAnswersANextState : Prop :=
  ∀ s : State, (∃ t, step s = .next t) ∧ (s.run ≠ .running → step s = .next s)

/-- R98, R230: a step that ends Faulted changed only run and stop; registers, FL, IE, memory, output and pc are as before. -/
def Obligations.FaultsArePrecise : Prop :=
  ∀ s t : State, s.run = .running → step s = .next t → t.run = .faulted →
    ∃ c, t = { s with run := .faulted, stop := .fault c }

/-- R30, R227: only HLT and a MOD with a zero divisor halt; the halt writes no register, flag, memory cell or output, and the
default advance is taken (R96, D12). -/
def Obligations.OnlyHltAndZeroModHalt : Prop :=
  ∀ s t : State, s.run = .running → s.cfg.opcodes.legal = true → step s = .next t → t.run = .halted →
    ∃ i, fetchInstr s = .ok i ∧ t.pc.toNat = s.pc.toNat + s.cfg.lenOf i.mnemonic ∧
      SameRegs [] s t ∧ SameMem s t ∧ SameFlags s t ∧ t.out = s.out ∧
      ((i = .hlt ∧ t.stop = .halt .hlt) ∨
        ∃ a b j, i = .mod a b ∧ Names b j ∧ s.reg j = 0 ∧ t.stop = .halt .modZero)

/-- R227, R30, R90: a core that is not Running is unchanged by any number of steps (that a step there answers the same state is
the model's choice, log entry 4), and of the host's actions only reset takes a Halted or Faulted core to another state. -/
def Obligations.OnlyResetLeavesAStop : Prop :=
  ∀ s : State,
    (s.run ≠ .running → ∀ n, Reaches s n s) ∧
    (s.run = .halted ∨ s.run = .faulted → ∀ (h : HostAction) (t : State), hostStep h s = .next t →
      t = s ∨ h = .reset ∧ t.run = .idle)

/-! ## Invariants and whole-machine rules -/

/-- Every step keeps the machine's invariant: a legal map, a canonical memory, pc at most 256 (R27), FL one of 000, 001, 010, 100
(R28), and a stop cause that agrees with the run state and carries the info R220 gives it (R31). -/
def Obligations.StepKeepsTheInvariant : Prop :=
  ∀ s t : State, s.Inv → step s = .next t → t.Inv

/-- The state after reset meets the invariant, for every legal map and R_INIT (R251). -/
def Obligations.ResetMeetsTheInvariant : Prop :=
  (∀ cfg : Config, cfg.opcodes.legal = true → (State.resetWith cfg).Inv) ∧ State.reset.Inv

/-- Every host action that is accepted keeps the invariant (R250, R252, R256, R257). -/
def Obligations.HostActionsKeepTheInvariant : Prop :=
  ∀ (h : HostAction) (s t : State), s.Inv → hostStep h s = .next t → t.Inv

/-- From every state that meets the invariant, any number of steps answers a state that meets it (R90, R99; that
steps are answered while the core is not Running, where R90 has none, is the model's choice, log entry 4). -/
def Obligations.EveryRunKeepsTheInvariant : Prop :=
  ∀ (n : Nat) (s : State), s.Inv → ∃ t, Reaches s n t ∧ t.Inv

/-- R29: no step writes IE; and the parameters are fixed for the machine (R8). -/
def Obligations.StepKeepsConfigAndInterruptEnable : Prop :=
  ∀ s t : State, step s = .next t → t.ie = s.ie ∧ t.cfg = s.cfg

/-- R29: no instruction reads IE: two states that differ only in IE step to states that differ only in it. -/
def Obligations.InterruptEnableIsNeverRead : Prop :=
  ∀ (s t : State) (b : Bool), step s = .next t → step { s with ie := b } = .next { t with ie := b }

/-- R33: earlier output is kept and never read: with any other events before, the step is the same and appends the same. -/
def Obligations.OutputIsNeverRead : Prop :=
  ∀ (s t : State), step s = .next t →
    ∃ events, t.out = s.out ++ events ∧
      ∀ before : List OutEvent, step { s with out := before } = .next { t with out := before ++ events }

/-- R33: a step appends to the output only by PRN and PRA, exactly one event, the register's byte. -/
def Obligations.OnlyPrintsEmit : Prop :=
  ∀ s t : State, step s = .next t → t.out ≠ s.out →
    ∃ a j, Names a j ∧ ((fetchInstr s = .ok (.prn a) ∧ t.out = s.out ++ [⟨.dec, s.reg j⟩]) ∨
      (fetchInstr s = .ok (.pra a) ∧ t.out = s.out ++ [⟨.chr, s.reg j⟩]))

/-- R28: FL is set only by CMP, and then to exactly one of 001, 010, 100. -/
def Obligations.OnlyCmpWritesFlags : Prop :=
  ∀ s t : State, step s = .next t → t.fl ≠ s.fl →
    (∃ a b, fetchInstr s = .ok (.cmp a b)) ∧ (t.fl = 0b001 ∨ t.fl = 0b010 ∨ t.fl = 0b100)

/-- The writes among the step's bus accesses are exactly its change of memory (R51, R55, R61). -/
def Obligations.BusWritesAreTheMemoryChange : Prop :=
  ∀ s t : State, step s = .next t → t.mem = (busAccesses s).foldl Access.apply s.mem

/-- R61: the order of a step's accesses: the three fetch reads, then the one access of LD, ST, PUSH, POP, CALL or RET
(the table is derived from the rules of 41 and 43). -/
def Obligations.BusAccessesFollowTheTable : Prop :=
  ∀ (s : State) (i : Instr), s.run = .running → fetchInstr s = .ok i →
    ∃ rest, busAccesses s =
        [.read (BitVec.ofNat 8 s.pc.toNat) (s.byteAt 0), .read (BitVec.ofNat 8 (s.pc.toNat + 1)) (s.byteAt 1),
          .read (BitVec.ofNat 8 (s.pc.toNat + 2)) (s.byteAt 2)] ++ rest ∧ rest.length ≤ 1 ∧
      (∀ a b p q, i = .ld a b → Names a p → Names b q → rest = [.read (s.reg q) (s.mem.read (s.reg q).toNat)]) ∧
      (∀ a b p q, i = .st a b → Names a p → Names b q → rest = [.write (s.reg p) (s.reg q)]) ∧
      (∀ a p, i = .push a → Names a p → ∃ v, rest = [.write (s.reg 7 - 1) v]) ∧
      (∀ a p, i = .pop a → Names a p → rest = [.read (s.reg 7) (s.mem.read (s.reg 7).toNat)]) ∧
      (∀ a p, i = .call a → Names a p → ∃ v, rest = [.write (s.reg 7 - 1) v]) ∧
      (i = .ret → rest = [.read (s.reg 7) (s.mem.read (s.reg 7).toNat)]) ∧
      (i.mnemonic ∉ [.ld, .st, .push, .pop, .call, .ret] → rest = [])

/-- R64, R262: a byte that ST stores over the next opcode is the opcode the next step fetches, while the ST itself ran as it was
fetched. -/
def Obligations.StoredOpcodeRunsNext : Prop :=
  ∀ (s : State) (a b : Byte) (p q : Fin 8), s.run = .running → s.cfg.opcodes.legal = true → s.pc.toNat + 3 ≤ 253 →
    fetchInstr s = .ok (.st a b) → Names a p → Names b q → (s.reg p).toNat = s.pc.toNat + 3 →
    ∃ t, step s = .next t ∧ t.pc.toNat = s.pc.toNat + 3 ∧
      ∀ i, decode s.cfg (s.reg q) (s.byteAt 4) (s.byteAt 5) = .ok i → step t = exec i t

/-- R263 (a) to (d): a step that keeps the software's discipline raises no fault. -/
def Obligations.DisciplinedStepsDoNotFault : Prop :=
  ∀ s t : State, s.run = .running → Disciplined s → step s = .next t → t.run ≠ .faulted

/-! ## Ports -/

/-- R220, R31, R38: in every state that meets the invariant the ports show the run state, the code of the stop cause and its
info as the table gives them; codes 3 and 7 never appear. -/
def Obligations.PortsShowTheStopCause : Prop :=
  ∀ s : State, s.Inv →
    (s.run = .idle → s.ports.state = 0 ∧ s.ports.stopCause = 0 ∧ s.ports.faultInfo = 0) ∧
    (s.run = .running → s.ports.state = 1 ∧ s.ports.stopCause = 0 ∧ s.ports.faultInfo = 0) ∧
    (s.run = .halted → s.ports.state = 2 ∧ s.ports.faultInfo = 0 ∧
      (s.stop = .halt .hlt ∧ s.ports.stopCause = 1 ∨ s.stop = .halt .modZero ∧ s.ports.stopCause = 2)) ∧
    (s.run = .faulted → s.ports.state = 3 ∧
      (s.stop = .fault (.outOfRangeMem 256) ∧ s.ports.stopCause = 4 ∧ s.ports.faultInfo = 256 ∨
        (∃ byte : Byte, s.stop = .fault (.outOfRangeReg byte) ∧ s.ports.stopCause = 5 ∧ 8 ≤ byte.toNat ∧
          s.ports.faultInfo.toNat = byte.toNat) ∨
        (∃ op : Byte, s.stop = .fault (.unknownOpcode op) ∧ s.ports.stopCause = 6 ∧
          s.ports.faultInfo.toNat = op.toNat)))

/-- R38: the debug port shows pc, FL, IE and x[i] on bits 8i+7:8i. -/
def Obligations.DebugPortShowsTheRegisters : Prop :=
  ∀ s : State, s.ports.dbgPc = s.pc ∧ s.ports.dbgFl = s.fl ∧ s.ports.dbgIe = s.ie ∧
    ∀ (i : Fin 8) (k : Nat), k < 8 → s.ports.dbgRegs.getLsbD (8 * i.val + k) = (s.reg i).getLsbD k

/-- R33, R38, R101: a step strobes exactly the events it appends, at most one, and its trace point is the state after a step that
raised no fault. That the record shows the three bytes while the core is Running, where R59 lets the host read no memory, is
the model's choice (log entry 20). -/
def Obligations.StrobesFollowTheStep : Prop :=
  ∀ s t : State, step s = .next t →
    t.out = s.out ++ (outStrobe s t).toList ∧
    (tracePoint s t = if s.run = .running ∧ t.run ≠ .faulted then some (traceOf t) else none) ∧
    (traceOf t).pc = t.pc ∧ (traceOf t).fl = t.fl ∧ (∀ r : Fin 8, (traceOf t).regs.get r = t.reg r) ∧
    (t.pc.toNat ≤ 253 → (traceOf t).bytes = [some (t.byteAt 0), some (t.byteAt 1), some (t.byteAt 2)])

/-! ## The instruction rules: data transfer and output -/

/-- R110 LDI: the immediate to the register, pc + 3, nothing else; a bad index faults with nothing written. -/
def Obligations.LoadImmediateRule : Prop :=
  (∀ a b, EncodesAs (.ldi a b) [0x82, a, b]) ∧
  ∀ s a b, Ready s →
    (∀ i, Names a i → ∃ t, exec (.ldi a b) s = .next t ∧ t.reg i = b ∧ SameRegs [i] s t ∧ SameMem s t ∧ SameFlags s t ∧
      SameRun s t ∧ t.out = s.out ∧ Advanced 3 s t) ∧
    (8 ≤ a.toNat → RaisesRegister (.ldi a b) s a)

/-- R111 LD: the byte of memory the second register addresses to the first register, pc + 3, nothing else. -/
def Obligations.LoadRule : Prop :=
  (∀ a b, EncodesAs (.ld a b) [0x83, a, b]) ∧
  ∀ s a b, Ready s →
    (∀ i j, Names a i → Names b j →
      ∃ t, exec (.ld a b) s = .next t ∧ t.reg i = s.mem.read (s.reg j).toNat ∧ SameRegs [i] s t ∧ SameMem s t ∧
        SameFlags s t ∧ SameRun s t ∧ t.out = s.out ∧ Advanced 3 s t) ∧
    (8 ≤ a.toNat → RaisesRegister (.ld a b) s a) ∧
    (a.toNat < 8 → 8 ≤ b.toNat → RaisesRegister (.ld a b) s b)

/-- R112 ST: the second register's value to the cell the first register addresses, that cell alone, pc + 3. -/
def Obligations.StoreRule : Prop :=
  (∀ a b, EncodesAs (.st a b) [0x84, a, b]) ∧
  ∀ s a b, Ready s →
    (∀ i j, Names a i → Names b j →
      ∃ t, exec (.st a b) s = .next t ∧ t.mem.read (s.reg i).toNat = s.reg j ∧ SameMemBut (s.reg i) s t ∧
        SameRegs [] s t ∧ SameFlags s t ∧ SameRun s t ∧ t.out = s.out ∧ Advanced 3 s t) ∧
    (8 ≤ a.toNat → RaisesRegister (.st a b) s a) ∧
    (a.toNat < 8 → 8 ≤ b.toNat → RaisesRegister (.st a b) s b)

/-- R120, R121 PRN and PRA: one event, (DEC, v) or (CHR, v) with v the register's byte, strobed with out_kind 0 or 1; pc + 2,
nothing written; a bad index faults with no event. -/
def Obligations.PrintRules : Prop :=
  (∀ a, EncodesAs (.prn a) [0x47, a]) ∧ (∀ a, EncodesAs (.pra a) [0x48, a]) ∧ outKindCode .dec = 0 ∧ outKindCode .chr = 1 ∧
  ∀ s a, Ready s →
    (∀ i, Names a i →
      (∃ t, exec (.prn a) s = .next t ∧ t.out = s.out ++ [⟨.dec, s.reg i⟩] ∧
        outStrobe s t = some ⟨.dec, s.reg i⟩ ∧ SameRegs [] s t ∧ SameMem s t ∧
        SameFlags s t ∧ SameRun s t ∧ Advanced 2 s t) ∧
      (∃ t, exec (.pra a) s = .next t ∧ t.out = s.out ++ [⟨.chr, s.reg i⟩] ∧
        outStrobe s t = some ⟨.chr, s.reg i⟩ ∧ SameRegs [] s t ∧ SameMem s t ∧
        SameFlags s t ∧ SameRun s t ∧ Advanced 2 s t)) ∧
    (8 ≤ a.toNat → RaisesRegister (.prn a) s a ∧ RaisesRegister (.pra a) s a)

/-! ## The instruction rules: stack and subroutines -/

/-- R130 PUSH: SP goes down by 1 modulo 256 and its new cell, alone, holds the register's byte; PUSH R7 stores the new SP
(the statement order, decision D13). -/
def Obligations.PushRule : Prop :=
  (∀ a, EncodesAs (.push a) [0x45, a]) ∧
  ∀ s a, Ready s →
    (∀ i, Names a i →
      ∃ t, exec (.push a) s = .next t ∧ (t.reg 7).toNat = ((s.reg 7).toNat + 255) % 256 ∧
        t.mem.read (t.reg 7).toNat = (if i = 7 then t.reg 7 else s.reg i) ∧ SameMemBut (t.reg 7) s t ∧
        SameRegs [7] s t ∧ SameFlags s t ∧ SameRun s t ∧ t.out = s.out ∧ Advanced 2 s t) ∧
    (8 ≤ a.toNat → RaisesRegister (.push a) s a)

/-- R131 POP: the register takes the byte at SP and SP goes up by 1 modulo 256; POP R7 leaves the loaded byte plus 1
(the statement order, decision D13). -/
def Obligations.PopRule : Prop :=
  (∀ a, EncodesAs (.pop a) [0x46, a]) ∧
  ∀ s a, Ready s →
    (∀ i, Names a i →
      ∃ t, exec (.pop a) s = .next t ∧
        (i ≠ 7 → t.reg i = s.mem.read (s.reg 7).toNat ∧ (t.reg 7).toNat = ((s.reg 7).toNat + 1) % 256) ∧
        (i = 7 → (t.reg 7).toNat = ((s.mem.read (s.reg 7).toNat).toNat + 1) % 256) ∧
        SameRegs [i, 7] s t ∧ SameMem s t ∧ SameFlags s t ∧ SameRun s t ∧ t.out = s.out ∧ Advanced 2 s t) ∧
    (8 ≤ a.toNat → RaisesRegister (.pop a) s a)

/-- R132 CALL: SP goes down by 1 modulo 256, its new cell, alone, holds pc + 2, and pc is the register's value after that; CALL
R7 jumps to the new SP (the statement order, decision D13); a target of 254 or 255 faults at the next fetch. -/
def Obligations.CallRule : Prop :=
  (∀ a, EncodesAs (.call a) [0x50, a]) ∧
  ∀ s a, Ready s →
    (∀ i, Names a i →
      ∃ t, exec (.call a) s = .next t ∧ (t.reg 7).toNat = ((s.reg 7).toNat + 255) % 256 ∧
        (t.mem.read (t.reg 7).toNat).toNat = s.pc.toNat + 2 ∧ SameMemBut (t.reg 7) s t ∧
        t.pc.toNat = (if i = 7 then t.reg 7 else s.reg i).toNat ∧
        SameRegs [7] s t ∧ SameFlags s t ∧ SameRun s t ∧ t.out = s.out ∧
        (s.run = .running → 254 ≤ t.pc.toNat →
          step t = .next { t with run := .faulted, stop := .fault (.outOfRangeMem 256) })) ∧
    (8 ≤ a.toNat → RaisesRegister (.call a) s a)

/-- R133 RET: pc is the byte at SP, then SP goes up by 1 modulo 256; it never faults, and a return to 254 or 255 faults at the
next fetch. -/
def Obligations.ReturnRule : Prop :=
  EncodesAs .ret [0x11] ∧
  ∀ s : State, ∃ t, exec .ret s = .next t ∧ t.pc.toNat = (s.mem.read (s.reg 7).toNat).toNat ∧
    (t.reg 7).toNat = ((s.reg 7).toNat + 1) % 256 ∧ SameRegs [7] s t ∧ SameMem s t ∧ SameFlags s t ∧ SameRun s t ∧
    t.out = s.out ∧
    (s.run = .running → 254 ≤ (s.mem.read (s.reg 7).toNat).toNat →
      step t = .next { t with run := .faulted, stop := .fault (.outOfRangeMem 256) })

/-- R135 (a): PUSH then POP on the same register, R7 included, restores it and leaves SP unchanged. -/
def Obligations.PushThenPopRestores : Prop :=
  ∀ (s : State) (a : Byte) (i : Fin 8), Ready s → s.pc.toNat + 2 ≤ 253 → Names a i →
    ∃ t u, exec (.push a) s = .next t ∧ exec (.pop a) t = .next u ∧ SameRegs [] s u ∧ SameFlags s u ∧ SameRun s u ∧
      u.out = s.out ∧ Advanced 4 s u

/-- R135 (b): CALL at A, then RET from a state that left SP and the byte at the return slot as CALL left them, resumes at A + 2
with SP restored. -/
def Obligations.CallThenReturnResumes : Prop :=
  ∀ (s t u : State) (a : Byte) (i : Fin 8), Ready s → Names a i → exec (.call a) s = .next t →
    u.reg 7 = t.reg 7 → u.mem.read (t.reg 7).toNat = t.mem.read (t.reg 7).toNat →
    ∃ v, exec .ret u = .next v ∧ v.pc.toNat = s.pc.toNat + 2 ∧ v.reg 7 = s.reg 7 ∧ SameRegs [7] s t ∧ SameRegs [7] u v

/-! ## The instruction rules: jumps -/

/-- R150 JMP: pc is the register's value and nothing else changes; a target of 254 or 255 faults at the next fetch. -/
def Obligations.JumpRule : Prop :=
  (∀ a, EncodesAs (.jmp a) [0x54, a]) ∧
  ∀ s a,
    (∀ i, Names a i → ∃ t, exec (.jmp a) s = .next t ∧ t.pc.toNat = (s.reg i).toNat ∧ SameRegs [] s t ∧ SameMem s t ∧
      SameFlags s t ∧ SameRun s t ∧ t.out = s.out ∧
      (s.run = .running → 254 ≤ (s.reg i).toNat →
        step t = .next { t with run := .faulted, stop := .fault (.outOfRangeMem 256) })) ∧
    (8 ≤ a.toNat → RaisesRegister (.jmp a) s a)

/-- R151, R152 JEQ and JNE: on FL bit 0 set, on FL bit 0 clear. -/
def Obligations.EqualJumpRules : Prop :=
  ∀ s : State, Ready s →
    ConditionalJumpRule .jeq 0x55 (fun fl => fl.getLsbD 0) s ∧ ConditionalJumpRule .jne 0x56 (fun fl => !fl.getLsbD 0) s

/-- R153 to R157 JGT, JLT, JLE, JGE: with REL_JUMPS = branch on G, L, L or E, G or E; with advance only the advance by 2, no
register dereferenced. -/
def Obligations.RelationalJumpRules : Prop :=
  ∀ s : State, Ready s →
    let rel (c : Byte → Bool) : Byte → Bool := fun fl => c fl && s.cfg.relJumps == .branch
    ConditionalJumpRule .jgt 0x57 (rel fun fl => fl.getLsbD 1) s ∧
    ConditionalJumpRule .jlt 0x58 (rel fun fl => fl.getLsbD 2) s ∧
    ConditionalJumpRule .jle 0x59 (rel fun fl => fl.getLsbD 2 || fl.getLsbD 0) s ∧
    ConditionalJumpRule .jge 0x5A (rel fun fl => fl.getLsbD 1 || fl.getLsbD 0) s

/-- R158, derived from R183 and R151 to R157: after CMP of unsigned values u and v, JEQ is taken exactly when u = v and JNE
exactly when not; with REL_JUMPS = branch each relational jump exactly when its relation holds. One that is not taken advances
by 2. -/
def Obligations.CompareThenJump : Prop :=
  ∀ (s t : State) (a b c : Byte) (i j k : Fin 8), Ready s → s.pc.toNat + 3 ≤ 253 →
    Names a i → Names b j → Names c k → exec (.cmp a b) s = .next t →
    let u := (s.reg i).toNat
    let v := (s.reg j).toNat
    let goes (instr : Instr) (taken : Prop) : Prop :=
      ∃ w, exec instr t = .next w ∧ (taken → w.pc.toNat = (s.reg k).toNat) ∧ (¬ taken → w.pc.toNat = t.pc.toNat + 2)
    goes (.jeq c) (u = v) ∧ goes (.jne c) (u ≠ v) ∧
      (s.cfg.relJumps = .branch →
        goes (.jgt c) (u > v) ∧ goes (.jlt c) (u < v) ∧ goes (.jle c) (u ≤ v) ∧ goes (.jge c) (u ≥ v))

/-! ## The instruction rules: ALU -/

/-- R171, R172, R173 ADD, SUB, MUL: the sum, the difference and the product modulo 256. -/
def Obligations.ArithmeticRules : Prop :=
  TwoRegisterRule .add 0xA0 (fun u v => (u + v) % 256) ∧
  TwoRegisterRule .sub 0xA1 (fun u v => (u + 256 - v) % 256) ∧
  TwoRegisterRule .mul 0xA2 (fun u v => u * v % 256)

/-- R174, R175 INC, DEC: exec's effect is one more and one less, modulo 256, whatever ADMIT_INC_DEC is, because admission is the
decoder's (log entry 15); not admitted, their bytes raise UnknownOpcode in the step, so the effect is never reached. -/
def Obligations.IncrementDecrementRules : Prop :=
  OneRegisterRule .inc 0x65 (fun u => (u + 1) % 256) ∧ OneRegisterRule .dec 0x66 (fun u => (u + 255) % 256) ∧
  ∀ s : State, s.run = .running → s.pc.toNat ≤ 253 → s.cfg.opcodes = .ls8 → s.cfg.admitIncDec = false →
    (s.byteAt 0 = 0x65 ∨ s.byteAt 0 = 0x66) →
    step s = .next { s with run := .faulted, stop := .fault (.unknownOpcode (s.byteAt 0)) }

/-- R176, R177, R178 AND, OR, XOR: bitwise on 8 bits. -/
def Obligations.LogicRules : Prop :=
  TwoRegisterRule .and 0xA8 (fun u v => u &&& v) ∧ TwoRegisterRule .or 0xAA (fun u v => u ||| v) ∧
  TwoRegisterRule .xor 0xAB (fun u v => u ^^^ v)

/-- R179 NOT: 255 minus the source register, which the byte at pc+2 names with NOT_SOURCE = operand_b and the destination's byte
with operand_a; the advance is by its length: 2 under the default map, as R179 writes it; under an alternative map it is the
model's reading (log entry 13). -/
def Obligations.NotRule : Prop :=
  (∀ a b, EncodesAs (.not a b) [0x69, a]) ∧
  ∀ s a b, Ready s →
    (∀ i j, Names a i → (s.cfg.notSource = .operandB ∧ Names b j ∨ s.cfg.notSource = .operandA ∧ j = i) →
      ∃ t, exec (.not a b) s = .next t ∧ (t.reg i).toNat = 255 - (s.reg j).toNat ∧ SameRegs [i] s t ∧ SameMem s t ∧
        SameFlags s t ∧ SameRun s t ∧ t.out = s.out ∧ Advanced (s.cfg.lenOf .not) s t ∧
        (s.cfg.opcodes = .ls8 → Advanced 2 s t)) ∧
    (8 ≤ a.toNat → RaisesRegister (.not a b) s a) ∧
    (a.toNat < 8 → 8 ≤ b.toNat → s.cfg.notSource = .operandB → RaisesRegister (.not a b) s b)

/-- R180, R181 SHL, SHR: times and divided by two to the count, the whole byte of the second register, zeros shifted in. -/
def Obligations.ShiftRules : Prop :=
  TwoRegisterRule .shl 0xAC (fun u v => u * 2 ^ v % 256) ∧ TwoRegisterRule .shr 0xAD (fun u v => u / 2 ^ v)

/-- R182 MOD: with a divisor that is not zero the unsigned remainder; with a zero divisor the machine halts, MOD_ZERO recorded
and no register written; pc + 3 in both, after the halt by decision D12; the index checks come first. -/
def Obligations.ModRule : Prop :=
  (∀ a b, EncodesAs (.mod a b) [0xA4, a, b]) ∧
  ∀ s a b, Ready s →
    (∀ i j, Names a i → Names b j → s.reg j ≠ 0 →
      ∃ t, exec (.mod a b) s = .next t ∧ (t.reg i).toNat = (s.reg i).toNat % (s.reg j).toNat ∧ SameRegs [i] s t ∧
        SameMem s t ∧ SameFlags s t ∧ SameRun s t ∧ t.out = s.out ∧ Advanced 3 s t) ∧
    (∀ i j, Names a i → Names b j → s.reg j = 0 →
      ∃ t, exec (.mod a b) s = .next t ∧ t.run = .halted ∧ t.stop = .halt .modZero ∧ SameRegs [] s t ∧ SameMem s t ∧
        SameFlags s t ∧ t.out = s.out ∧ Advanced 3 s t) ∧
    (8 ≤ a.toNat → RaisesRegister (.mod a b) s a) ∧
    (a.toNat < 8 → 8 ≤ b.toNat → RaisesRegister (.mod a b) s b)

/-- R183 CMP: FL becomes exactly 001 for equal, 100 for less, 010 for greater, unsigned; no register is written. -/
def Obligations.CompareRule : Prop :=
  (∀ a b, EncodesAs (.cmp a b) [0xA7, a, b]) ∧
  ∀ s a b, Ready s →
    (∀ i j, Names a i → Names b j →
      ∃ t, exec (.cmp a b) s = .next t ∧
        ((s.reg i).toNat = (s.reg j).toNat → t.fl = 0b00000001) ∧
        ((s.reg i).toNat < (s.reg j).toNat → t.fl = 0b00000100) ∧
        ((s.reg j).toNat < (s.reg i).toNat → t.fl = 0b00000010) ∧
        SameRegs [] s t ∧ SameMem s t ∧ t.ie = s.ie ∧ t.cfg = s.cfg ∧ SameRun s t ∧ t.out = s.out ∧ Advanced 3 s t) ∧
    (8 ≤ a.toNat → RaisesRegister (.cmp a b) s a) ∧
    (a.toNat < 8 → 8 ≤ b.toNat → RaisesRegister (.cmp a b) s b)

/-! ## The instruction rules: system -/

/-- R210 HLT: run is Halted, stop is Halt(HLT), pc + 1 (decision D12), nothing else; at 254 or 255 it faults in the fetch
instead; and no step leaves the halt (that a step rests there is the model's choice, log entry 4). -/
def Obligations.HaltRule : Prop :=
  EncodesAs .hlt [0x01] ∧
  ∀ s : State, Ready s →
    (∃ t, exec .hlt s = .next t ∧ t.run = .halted ∧ t.stop = .halt .hlt ∧ SameRegs [] s t ∧ SameMem s t ∧ SameFlags s t ∧
      t.out = s.out ∧ Advanced 1 s t ∧ ∀ n, Reaches t n t) ∧
    (s.run = .running → ∀ p : PcWord, p = 254 ∨ p = 255 →
      step { s with pc := p } = .next { s with pc := p, run := .faulted, stop := .fault (.outOfRangeMem 256) })

/-- R211, R212 INT and IRET: nothing but the advance by the length: 2 and 1 under the default map, as the rules write it;
under an alternative map it is the model's reading (log entry 13). INT's operand byte is not interpreted, whatever it is. -/
def Obligations.ReservedIdentifierRules : Prop :=
  (∀ a, EncodesAs (.int a) [0x52, a]) ∧ EncodesAs .iret [0x13] ∧
  ∀ (s : State) (a : Byte), Ready s →
    (∃ t, exec (.int a) s = .next t ∧ SameRegs [] s t ∧ SameMem s t ∧ SameFlags s t ∧ SameRun s t ∧ t.out = s.out ∧
      Advanced (s.cfg.lenOf .int) s t ∧ (s.cfg.opcodes = .ls8 → Advanced 2 s t)) ∧
    (∃ t, exec .iret s = .next t ∧ SameRegs [] s t ∧ SameMem s t ∧ SameFlags s t ∧ SameRun s t ∧ t.out = s.out ∧
      Advanced (s.cfg.lenOf .iret) s t ∧ (s.cfg.opcodes = .ls8 → Advanced 1 s t))
end

