-- ==== Sys2Proof/Laws/Config.lean ====
section
/-! SUPPORT. What a legal OPCODE_MAP gives (R70, R74, R79): distinct bytes, so the map reads backwards, and the lengths. -/

namespace Sys2Proof

theorem Mnemonic.mem_all (k : Mnemonic) : k ∈ Mnemonic.all := by cases k <;> decide

theorem OpcodeMap.legal_iff (m : OpcodeMap) :
    m.legal = true ↔ m.distinctBytes = true ∧ m.countsAgree = true ∧ m.countsShort = true := by
  simp [OpcodeMap.legal, and_assoc]

theorem OpcodeMap.byteOf_injective {m : OpcodeMap} (h : m.legal = true) {k l : Mnemonic} (e : m.byteOf k = m.byteOf l) :
    k = l := by
  have hn : (Mnemonic.all.map m.byteOf).Nodup := by simpa [OpcodeMap.distinctBytes] using (m.legal_iff.1 h).1
  exact List.inj_on_of_nodup_map hn k.mem_all l.mem_all e

/-- The mnemonic a map reads from a byte is one whose byte it is. -/
theorem OpcodeMap.byteOf_of_mnemonicOf {m : OpcodeMap} {op : Byte} {k : Mnemonic} (h : m.mnemonicOf op = some k) :
    m.byteOf k = op := by
  simpa using List.find?_some h

theorem OpcodeMap.mnemonicOf_eq_none {m : OpcodeMap} {op : Byte} :
    m.mnemonicOf op = none ↔ ∀ k, m.byteOf k ≠ op := by
  simp [OpcodeMap.mnemonicOf, List.find?_eq_none, Mnemonic.mem_all]

/-- A legal map reads backwards: each mnemonic's byte gives that mnemonic. -/
theorem OpcodeMap.mnemonicOf_byteOf {m : OpcodeMap} (h : m.legal = true) (k : Mnemonic) :
    m.mnemonicOf (m.byteOf k) = some k := by
  cases e : m.mnemonicOf (m.byteOf k) with
  | none => exact absurd rfl (OpcodeMap.mnemonicOf_eq_none.1 e k)
  | some l => rw [OpcodeMap.byteOf_injective h (OpcodeMap.byteOf_of_mnemonicOf e)]

theorem Config.lenOf_eq (cfg : Config) (k : Mnemonic) : cfg.lenOf k = (cfg.opcodes.byteOf k).toNat / 64 + 1 := rfl

theorem Config.lenOf_pos (cfg : Config) (k : Mnemonic) : 1 ≤ cfg.lenOf k := Nat.le_add_left 1 _

theorem Config.lenOf_le_three {cfg : Config} (h : cfg.opcodes.legal = true) (k : Mnemonic) : cfg.lenOf k ≤ 3 := by
  have hs := (OpcodeMap.legal_iff _).1 h |>.2.2
  simp only [OpcodeMap.countsShort, List.all_eq_true, decide_eq_true_eq] at hs
  have := hs k k.mem_all
  rw [Config.lenOf_eq]
  omega

/-- The length of an instruction whose operand count R79 fixes. -/
theorem Config.lenOf_of_fixed {cfg : Config} (h : cfg.opcodes.legal = true) {k : Mnemonic} (hk : k.countIsFixed = true) :
    cfg.lenOf k = k.format.operandCount + 1 := by
  have hs := (OpcodeMap.legal_iff _).1 h |>.2.1
  simp only [OpcodeMap.countsAgree, List.all_eq_true] at hs
  have := hs k k.mem_all
  simp only [hk, Bool.not_true, Bool.false_or, beq_iff_eq] at this
  rw [Config.lenOf_eq, this]

theorem OpcodeMap.ls8_legal : OpcodeMap.ls8.legal = true := by decide

theorem Instr.operands_instrOf (k : Mnemonic) (a b : Byte) :
    (instrOf k a b).operands = [a, b].take (instrOf k a b).operands.length := by
  cases k <;> rfl

@[simp] theorem Instr.mnemonic_instrOf (k : Mnemonic) (a b : Byte) : (instrOf k a b).mnemonic = k := by cases k <;> rfl

end Sys2Proof
end

