-- ==== Sys2Proof/Laws/State.lean ====
section
/-! SUPPORT. What each update of State does to each field and accessor, true by unfolding once and tagged for simp, so that
no later proof unfolds a record update. -/

namespace Sys2Proof.Machine

open Sys2Proof

/-! ### Reading a register after a register write -/

theorem State.reg_eq_getElem (s : State) (r : Fin 8) : s.reg r = s.x[r.val] := rfl

theorem State.setReg_reg (s : State) (i r : Fin 8) (v : Byte) :
    (s.setReg i v).reg r = if r = i then v else s.reg r := by
  simp only [State.reg_eq_getElem, State.setReg, Vector.getElem_set, Fin.ext_iff, eq_comm]

@[simp] theorem State.setReg_reg_self (s : State) (i : Fin 8) (v : Byte) : (s.setReg i v).reg i = v := by
  simp [State.setReg_reg]

theorem State.setReg_reg_ne (s : State) {i r : Fin 8} (v : Byte) (h : r ≠ i) : (s.setReg i v).reg r = s.reg r := by
  simp [State.setReg_reg, h]

@[simp] theorem State.setSp_sp (s : State) (v : Byte) : (s.setSp v).sp = v := State.setReg_reg_self s _ v

theorem State.setSp_reg (s : State) (r : Fin 8) (v : Byte) :
    (s.setSp v).reg r = if r = spIndex then v else s.reg r := State.setReg_reg s _ r v

@[simp] theorem State.decSp_sp (s : State) : s.decSp.sp = aluDec s.sp := State.setSp_sp s _

@[simp] theorem State.incSp_sp (s : State) : s.incSp.sp = aluInc s.sp := State.setSp_sp s _

theorem State.decSp_reg (s : State) (r : Fin 8) :
    s.decSp.reg r = if r = spIndex then aluDec s.sp else s.reg r := State.setSp_reg s r _

theorem State.incSp_reg (s : State) (r : Fin 8) :
    s.incSp.reg r = if r = spIndex then aluInc s.sp else s.reg r := State.setSp_reg s r _

theorem State.setReg_sp (s : State) (i : Fin 8) (v : Byte) :
    (s.setReg i v).sp = if spIndex = i then v else s.sp := State.setReg_reg s i _ v

/-! ### State.setReg -/

@[simp] theorem State.setReg_cfg (s : State) (i : Fin 8) (v : Byte) : (s.setReg i v).cfg = s.cfg := rfl
@[simp] theorem State.setReg_pc (s : State) (i : Fin 8) (v : Byte) : (s.setReg i v).pc = s.pc := rfl
@[simp] theorem State.setReg_fl (s : State) (i : Fin 8) (v : Byte) : (s.setReg i v).fl = s.fl := rfl
@[simp] theorem State.setReg_ie (s : State) (i : Fin 8) (v : Byte) : (s.setReg i v).ie = s.ie := rfl
@[simp] theorem State.setReg_mem (s : State) (i : Fin 8) (v : Byte) : (s.setReg i v).mem = s.mem := rfl
@[simp] theorem State.setReg_run (s : State) (i : Fin 8) (v : Byte) : (s.setReg i v).run = s.run := rfl
@[simp] theorem State.setReg_stop (s : State) (i : Fin 8) (v : Byte) : (s.setReg i v).stop = s.stop := rfl
@[simp] theorem State.setReg_out (s : State) (i : Fin 8) (v : Byte) : (s.setReg i v).out = s.out := rfl
@[simp] theorem State.setReg_load (s : State) (i : Fin 8) (v : Byte) (d : Byte) : (s.setReg i v).load d = s.load d := rfl
@[simp] theorem State.setReg_nextPc (s : State) (i : Fin 8) (v : Byte) (q : Mnemonic) : (s.setReg i v).nextPc q = s.nextPc q := rfl

/-! ### State.setSp -/

@[simp] theorem State.setSp_cfg (s : State) (v : Byte) : (s.setSp v).cfg = s.cfg := rfl
@[simp] theorem State.setSp_pc (s : State) (v : Byte) : (s.setSp v).pc = s.pc := rfl
@[simp] theorem State.setSp_fl (s : State) (v : Byte) : (s.setSp v).fl = s.fl := rfl
@[simp] theorem State.setSp_ie (s : State) (v : Byte) : (s.setSp v).ie = s.ie := rfl
@[simp] theorem State.setSp_mem (s : State) (v : Byte) : (s.setSp v).mem = s.mem := rfl
@[simp] theorem State.setSp_run (s : State) (v : Byte) : (s.setSp v).run = s.run := rfl
@[simp] theorem State.setSp_stop (s : State) (v : Byte) : (s.setSp v).stop = s.stop := rfl
@[simp] theorem State.setSp_out (s : State) (v : Byte) : (s.setSp v).out = s.out := rfl
@[simp] theorem State.setSp_load (s : State) (v : Byte) (d : Byte) : (s.setSp v).load d = s.load d := rfl
@[simp] theorem State.setSp_nextPc (s : State) (v : Byte) (q : Mnemonic) : (s.setSp v).nextPc q = s.nextPc q := rfl

/-! ### State.decSp -/

@[simp] theorem State.decSp_cfg (s : State) : (s.decSp).cfg = s.cfg := rfl
@[simp] theorem State.decSp_pc (s : State) : (s.decSp).pc = s.pc := rfl
@[simp] theorem State.decSp_fl (s : State) : (s.decSp).fl = s.fl := rfl
@[simp] theorem State.decSp_ie (s : State) : (s.decSp).ie = s.ie := rfl
@[simp] theorem State.decSp_mem (s : State) : (s.decSp).mem = s.mem := rfl
@[simp] theorem State.decSp_run (s : State) : (s.decSp).run = s.run := rfl
@[simp] theorem State.decSp_stop (s : State) : (s.decSp).stop = s.stop := rfl
@[simp] theorem State.decSp_out (s : State) : (s.decSp).out = s.out := rfl
@[simp] theorem State.decSp_load (s : State) (d : Byte) : (s.decSp).load d = s.load d := rfl
@[simp] theorem State.decSp_nextPc (s : State) (q : Mnemonic) : (s.decSp).nextPc q = s.nextPc q := rfl

/-! ### State.incSp -/

@[simp] theorem State.incSp_cfg (s : State) : (s.incSp).cfg = s.cfg := rfl
@[simp] theorem State.incSp_pc (s : State) : (s.incSp).pc = s.pc := rfl
@[simp] theorem State.incSp_fl (s : State) : (s.incSp).fl = s.fl := rfl
@[simp] theorem State.incSp_ie (s : State) : (s.incSp).ie = s.ie := rfl
@[simp] theorem State.incSp_mem (s : State) : (s.incSp).mem = s.mem := rfl
@[simp] theorem State.incSp_run (s : State) : (s.incSp).run = s.run := rfl
@[simp] theorem State.incSp_stop (s : State) : (s.incSp).stop = s.stop := rfl
@[simp] theorem State.incSp_out (s : State) : (s.incSp).out = s.out := rfl
@[simp] theorem State.incSp_load (s : State) (d : Byte) : (s.incSp).load d = s.load d := rfl
@[simp] theorem State.incSp_nextPc (s : State) (q : Mnemonic) : (s.incSp).nextPc q = s.nextPc q := rfl

/-! ### State.setFl -/

@[simp] theorem State.setFl_cfg (s : State) (v : Byte) : (s.setFl v).cfg = s.cfg := rfl
@[simp] theorem State.setFl_x (s : State) (v : Byte) : (s.setFl v).x = s.x := rfl
@[simp] theorem State.setFl_pc (s : State) (v : Byte) : (s.setFl v).pc = s.pc := rfl
@[simp] theorem State.setFl_fl (s : State) (v : Byte) : (s.setFl v).fl = v := rfl
@[simp] theorem State.setFl_ie (s : State) (v : Byte) : (s.setFl v).ie = s.ie := rfl
@[simp] theorem State.setFl_mem (s : State) (v : Byte) : (s.setFl v).mem = s.mem := rfl
@[simp] theorem State.setFl_run (s : State) (v : Byte) : (s.setFl v).run = s.run := rfl
@[simp] theorem State.setFl_stop (s : State) (v : Byte) : (s.setFl v).stop = s.stop := rfl
@[simp] theorem State.setFl_out (s : State) (v : Byte) : (s.setFl v).out = s.out := rfl
@[simp] theorem State.setFl_reg (s : State) (v : Byte) (r : Fin 8) : (s.setFl v).reg r = s.reg r := rfl
@[simp] theorem State.setFl_sp (s : State) (v : Byte) : (s.setFl v).sp = s.sp := rfl
@[simp] theorem State.setFl_load (s : State) (v : Byte) (d : Byte) : (s.setFl v).load d = s.load d := rfl
@[simp] theorem State.setFl_nextPc (s : State) (v : Byte) (q : Mnemonic) : (s.setFl v).nextPc q = s.nextPc q := rfl

/-! ### State.jumpTo -/

@[simp] theorem State.jumpTo_cfg (s : State) (v : Byte) : (s.jumpTo v).cfg = s.cfg := rfl
@[simp] theorem State.jumpTo_x (s : State) (v : Byte) : (s.jumpTo v).x = s.x := rfl
@[simp] theorem State.jumpTo_pc (s : State) (v : Byte) : (s.jumpTo v).pc = v.setWidth 9 := rfl
@[simp] theorem State.jumpTo_fl (s : State) (v : Byte) : (s.jumpTo v).fl = s.fl := rfl
@[simp] theorem State.jumpTo_ie (s : State) (v : Byte) : (s.jumpTo v).ie = s.ie := rfl
@[simp] theorem State.jumpTo_mem (s : State) (v : Byte) : (s.jumpTo v).mem = s.mem := rfl
@[simp] theorem State.jumpTo_run (s : State) (v : Byte) : (s.jumpTo v).run = s.run := rfl
@[simp] theorem State.jumpTo_stop (s : State) (v : Byte) : (s.jumpTo v).stop = s.stop := rfl
@[simp] theorem State.jumpTo_out (s : State) (v : Byte) : (s.jumpTo v).out = s.out := rfl
@[simp] theorem State.jumpTo_reg (s : State) (v : Byte) (r : Fin 8) : (s.jumpTo v).reg r = s.reg r := rfl
@[simp] theorem State.jumpTo_sp (s : State) (v : Byte) : (s.jumpTo v).sp = s.sp := rfl
@[simp] theorem State.jumpTo_load (s : State) (v : Byte) (d : Byte) : (s.jumpTo v).load d = s.load d := rfl

/-! ### State.advance -/

@[simp] theorem State.advance_cfg (s : State) (k : Mnemonic) : (s.advance k).cfg = s.cfg := rfl
@[simp] theorem State.advance_x (s : State) (k : Mnemonic) : (s.advance k).x = s.x := rfl
@[simp] theorem State.advance_pc (s : State) (k : Mnemonic) : (s.advance k).pc = s.nextPc k := rfl
@[simp] theorem State.advance_fl (s : State) (k : Mnemonic) : (s.advance k).fl = s.fl := rfl
@[simp] theorem State.advance_ie (s : State) (k : Mnemonic) : (s.advance k).ie = s.ie := rfl
@[simp] theorem State.advance_mem (s : State) (k : Mnemonic) : (s.advance k).mem = s.mem := rfl
@[simp] theorem State.advance_run (s : State) (k : Mnemonic) : (s.advance k).run = s.run := rfl
@[simp] theorem State.advance_stop (s : State) (k : Mnemonic) : (s.advance k).stop = s.stop := rfl
@[simp] theorem State.advance_out (s : State) (k : Mnemonic) : (s.advance k).out = s.out := rfl
@[simp] theorem State.advance_reg (s : State) (k : Mnemonic) (r : Fin 8) : (s.advance k).reg r = s.reg r := rfl
@[simp] theorem State.advance_sp (s : State) (k : Mnemonic) : (s.advance k).sp = s.sp := rfl
@[simp] theorem State.advance_load (s : State) (k : Mnemonic) (d : Byte) : (s.advance k).load d = s.load d := rfl

/-! ### State.store -/

@[simp] theorem State.store_cfg (s : State) (a v : Byte) : (s.store a v).cfg = s.cfg := rfl
@[simp] theorem State.store_x (s : State) (a v : Byte) : (s.store a v).x = s.x := rfl
@[simp] theorem State.store_pc (s : State) (a v : Byte) : (s.store a v).pc = s.pc := rfl
@[simp] theorem State.store_fl (s : State) (a v : Byte) : (s.store a v).fl = s.fl := rfl
@[simp] theorem State.store_ie (s : State) (a v : Byte) : (s.store a v).ie = s.ie := rfl
@[simp] theorem State.store_mem (s : State) (a v : Byte) : (s.store a v).mem = s.mem.write a.toNat v := rfl
@[simp] theorem State.store_run (s : State) (a v : Byte) : (s.store a v).run = s.run := rfl
@[simp] theorem State.store_stop (s : State) (a v : Byte) : (s.store a v).stop = s.stop := rfl
@[simp] theorem State.store_out (s : State) (a v : Byte) : (s.store a v).out = s.out := rfl
@[simp] theorem State.store_reg (s : State) (a v : Byte) (r : Fin 8) : (s.store a v).reg r = s.reg r := rfl
@[simp] theorem State.store_sp (s : State) (a v : Byte) : (s.store a v).sp = s.sp := rfl
@[simp] theorem State.store_nextPc (s : State) (a v : Byte) (q : Mnemonic) : (s.store a v).nextPc q = s.nextPc q := rfl

/-! ### State.emit -/

@[simp] theorem State.emit_cfg (s : State) (k : OutKind) (v : Byte) : (s.emit k v).cfg = s.cfg := rfl
@[simp] theorem State.emit_x (s : State) (k : OutKind) (v : Byte) : (s.emit k v).x = s.x := rfl
@[simp] theorem State.emit_pc (s : State) (k : OutKind) (v : Byte) : (s.emit k v).pc = s.pc := rfl
@[simp] theorem State.emit_fl (s : State) (k : OutKind) (v : Byte) : (s.emit k v).fl = s.fl := rfl
@[simp] theorem State.emit_ie (s : State) (k : OutKind) (v : Byte) : (s.emit k v).ie = s.ie := rfl
@[simp] theorem State.emit_mem (s : State) (k : OutKind) (v : Byte) : (s.emit k v).mem = s.mem := rfl
@[simp] theorem State.emit_run (s : State) (k : OutKind) (v : Byte) : (s.emit k v).run = s.run := rfl
@[simp] theorem State.emit_stop (s : State) (k : OutKind) (v : Byte) : (s.emit k v).stop = s.stop := rfl
@[simp] theorem State.emit_out (s : State) (k : OutKind) (v : Byte) : (s.emit k v).out = s.out ++ [⟨k, v⟩] := rfl
@[simp] theorem State.emit_reg (s : State) (k : OutKind) (v : Byte) (r : Fin 8) : (s.emit k v).reg r = s.reg r := rfl
@[simp] theorem State.emit_sp (s : State) (k : OutKind) (v : Byte) : (s.emit k v).sp = s.sp := rfl
@[simp] theorem State.emit_load (s : State) (k : OutKind) (v : Byte) (d : Byte) : (s.emit k v).load d = s.load d := rfl
@[simp] theorem State.emit_nextPc (s : State) (k : OutKind) (v : Byte) (q : Mnemonic) : (s.emit k v).nextPc q = s.nextPc q := rfl

/-! ### State.faultWith -/

@[simp] theorem State.faultWith_cfg (s : State) (c : FaultCause) : (s.faultWith c).cfg = s.cfg := rfl
@[simp] theorem State.faultWith_x (s : State) (c : FaultCause) : (s.faultWith c).x = s.x := rfl
@[simp] theorem State.faultWith_pc (s : State) (c : FaultCause) : (s.faultWith c).pc = s.pc := rfl
@[simp] theorem State.faultWith_fl (s : State) (c : FaultCause) : (s.faultWith c).fl = s.fl := rfl
@[simp] theorem State.faultWith_ie (s : State) (c : FaultCause) : (s.faultWith c).ie = s.ie := rfl
@[simp] theorem State.faultWith_mem (s : State) (c : FaultCause) : (s.faultWith c).mem = s.mem := rfl
@[simp] theorem State.faultWith_run (s : State) (c : FaultCause) : (s.faultWith c).run = .faulted := rfl
@[simp] theorem State.faultWith_stop (s : State) (c : FaultCause) : (s.faultWith c).stop = .fault c := rfl
@[simp] theorem State.faultWith_out (s : State) (c : FaultCause) : (s.faultWith c).out = s.out := rfl
@[simp] theorem State.faultWith_reg (s : State) (c : FaultCause) (r : Fin 8) : (s.faultWith c).reg r = s.reg r := rfl
@[simp] theorem State.faultWith_sp (s : State) (c : FaultCause) : (s.faultWith c).sp = s.sp := rfl
@[simp] theorem State.faultWith_load (s : State) (c : FaultCause) (d : Byte) : (s.faultWith c).load d = s.load d := rfl
@[simp] theorem State.faultWith_nextPc (s : State) (c : FaultCause) (q : Mnemonic) : (s.faultWith c).nextPc q = s.nextPc q := rfl

/-! ### State.haltWith -/

@[simp] theorem State.haltWith_cfg (s : State) (c : HaltCause) : (s.haltWith c).cfg = s.cfg := rfl
@[simp] theorem State.haltWith_x (s : State) (c : HaltCause) : (s.haltWith c).x = s.x := rfl
@[simp] theorem State.haltWith_pc (s : State) (c : HaltCause) : (s.haltWith c).pc = s.pc := rfl
@[simp] theorem State.haltWith_fl (s : State) (c : HaltCause) : (s.haltWith c).fl = s.fl := rfl
@[simp] theorem State.haltWith_ie (s : State) (c : HaltCause) : (s.haltWith c).ie = s.ie := rfl
@[simp] theorem State.haltWith_mem (s : State) (c : HaltCause) : (s.haltWith c).mem = s.mem := rfl
@[simp] theorem State.haltWith_run (s : State) (c : HaltCause) : (s.haltWith c).run = .halted := rfl
@[simp] theorem State.haltWith_stop (s : State) (c : HaltCause) : (s.haltWith c).stop = .halt c := rfl
@[simp] theorem State.haltWith_out (s : State) (c : HaltCause) : (s.haltWith c).out = s.out := rfl
@[simp] theorem State.haltWith_reg (s : State) (c : HaltCause) (r : Fin 8) : (s.haltWith c).reg r = s.reg r := rfl
@[simp] theorem State.haltWith_sp (s : State) (c : HaltCause) : (s.haltWith c).sp = s.sp := rfl
@[simp] theorem State.haltWith_load (s : State) (c : HaltCause) (d : Byte) : (s.haltWith c).load d = s.load d := rfl
@[simp] theorem State.haltWith_nextPc (s : State) (c : HaltCause) (q : Mnemonic) : (s.haltWith c).nextPc q = s.nextPc q := rfl

/-! ### The reset state -/

@[simp] theorem State.resetWith_sp (cfg : Config) : (State.resetWith cfg).sp = spReset := by
  simp [State.sp, State.reg_eq_getElem, State.resetWith, spIndex]

theorem State.resetWith_reg (cfg : Config) (k : Fin 7) : (State.resetWith cfg).reg k.castSucc = cfg.rInit.get k := by
  obtain ⟨k, hk⟩ := k
  simp [State.reg_eq_getElem, State.resetWith, hk, Vector.get]

end Sys2Proof.Machine
end

