-- ==== Sys2Proof/Laws/Ops.lean ====
section
/-! SUPPORT. One lemma for each shared operation that says what it answers: RegIdx, the bound check, the fetch, the shared
shapes of the families, and the shape of every next state of exec. -/

namespace Sys2Proof.Machine

open Sys2Proof

/-! ### Arithmetic -/

theorem u8_natCast_toNat (n : Nat) : (u8 (n : Int)).toNat = n % 256 := by
  simp [u8]

theorem aluAdd_toNat (u v : Byte) : (aluAdd u v).toNat = (u.toNat + v.toNat) % 256 := by
  simpa [aluAdd] using u8_natCast_toNat (u.toNat + v.toNat)

theorem aluSub_toNat (u v : Byte) : (aluSub u v).toNat = (u.toNat + 256 - v.toNat) % 256 := by
  have hv := v.isLt
  simp [aluSub, u8, BitVec.toNat_ofInt]
  omega

theorem aluMul_toNat (u v : Byte) : (aluMul u v).toNat = u.toNat * v.toNat % 256 := by
  simpa [aluMul] using u8_natCast_toNat (u.toNat * v.toNat)

theorem aluInc_toNat (u : Byte) : (aluInc u).toNat = (u.toNat + 1) % 256 := by
  simpa [aluInc] using u8_natCast_toNat (u.toNat + 1)

theorem aluDec_toNat (u : Byte) : (aluDec u).toNat = (u.toNat + 255) % 256 := by
  have hu := u.isLt
  simp [aluDec, u8, BitVec.toNat_ofInt]
  omega

theorem aluNot_toNat (v : Byte) : (aluNot v).toNat = 255 - v.toNat := by
  simp [aluNot, BitVec.toNat_not]

theorem aluShl_toNat (u v : Byte) : (aluShl u v).toNat = u.toNat * 2 ^ v.toNat % 256 := by
  simpa [aluShl] using u8_natCast_toNat (u.toNat * 2 ^ v.toNat)

theorem aluShr_toNat (u v : Byte) : (aluShr u v).toNat = u.toNat / 2 ^ v.toNat := by
  have h : (aluShr u v).toNat = u.toNat / 2 ^ v.toNat % 256 := by
    rw [← u8_natCast_toNat, aluShr]
    push_cast
    rfl
  rw [h, Nat.mod_eq_of_lt (Nat.lt_of_le_of_lt (Nat.div_le_self ..) u.isLt)]

theorem aluMod_toNat (u v : Byte) : (aluMod u v).toNat = u.toNat % v.toNat := by
  have h : (aluMod u v).toNat = u.toNat % v.toNat % 256 := by
    simpa [aluMod] using u8_natCast_toNat (u.toNat % v.toNat)
  have := Nat.mod_le u.toNat v.toNat
  have := u.isLt
  omega

@[simp] theorem aluInc_aluDec (u : Byte) : aluInc (aluDec u) = u := by
  apply BitVec.eq_of_toNat_eq
  rw [aluInc_toNat, aluDec_toNat]
  have := u.isLt
  omega

theorem compareFlags_legal (u v : Byte) :
    compareFlags u v = 0b001 ∨ compareFlags u v = 0b010 ∨ compareFlags u v = 0b100 := by
  unfold compareFlags
  split
  · simp
  · split <;> simp

/-! ### RegIdx -/

theorem withReg_of_names {b : Byte} {i : Fin 8} (h : b.toNat = i.val) (s : State) (k : Fin 8 → Result) :
    withReg b s k = k i := by
  have hb : b.toNat < 8 := h ▸ i.isLt
  rw [withReg, dif_pos hb]
  congr 1
  exact Fin.ext h

theorem withReg_of_ge {b : Byte} (h : 8 ≤ b.toNat) (s : State) (k : Fin 8 → Result) :
    withReg b s k = .next (s.faultWith (.outOfRangeReg b)) := by
  rw [withReg, dif_neg (by omega)]
  rfl

/-- All that RegIdx can do: name a register or raise. -/
theorem withReg_cases (b : Byte) (s : State) (k : Fin 8 → Result) :
    (∃ i : Fin 8, b.toNat = i.val ∧ withReg b s k = k i) ∨
      (8 ≤ b.toNat ∧ withReg b s k = .next (s.faultWith (.outOfRangeReg b))) := by
  rcases Nat.lt_or_ge b.toNat 8 with h | h
  · exact .inl ⟨⟨b.toNat, h⟩, rfl, withReg_of_names rfl s k⟩
  · exact .inr ⟨h, withReg_of_ge h s k⟩

theorem withRegs_of_names {a b : Byte} {i j : Fin 8} (ha : a.toNat = i.val) (hb : b.toNat = j.val) (s : State)
    (k : Fin 8 → Fin 8 → Result) : withRegs a b s k = k i j := by
  rw [withRegs, withReg_of_names ha, withReg_of_names hb]

theorem withRegs_of_ge_left {a : Byte} (h : 8 ≤ a.toNat) (b : Byte) (s : State) (k : Fin 8 → Fin 8 → Result) :
    withRegs a b s k = .next (s.faultWith (.outOfRangeReg a)) := withReg_of_ge h s _

theorem withRegs_of_ge_right {a b : Byte} (ha : a.toNat < 8) (hb : 8 ≤ b.toNat) (s : State)
    (k : Fin 8 → Fin 8 → Result) : withRegs a b s k = .next (s.faultWith (.outOfRangeReg b)) := by
  rw [withRegs, withReg_of_names (i := ⟨a.toNat, ha⟩) rfl, withReg_of_ge hb]

/-- All that two RegIdx checks can do. -/
theorem withRegs_cases (a b : Byte) (s : State) (k : Fin 8 → Fin 8 → Result) :
    (∃ i j : Fin 8, a.toNat = i.val ∧ b.toNat = j.val ∧ withRegs a b s k = k i j) ∨
      ∃ c : Byte, (c = a ∨ c = b) ∧ 8 ≤ c.toNat ∧ withRegs a b s k = .next (s.faultWith (.outOfRangeReg c)) := by
  rcases Nat.lt_or_ge a.toNat 8 with ha | ha
  · rcases Nat.lt_or_ge b.toNat 8 with hb | hb
    · exact .inl ⟨⟨_, ha⟩, ⟨_, hb⟩, rfl, rfl, withRegs_of_names rfl rfl s k⟩
    · exact .inr ⟨b, .inr rfl, hb, withRegs_of_ge_right ha hb s k⟩
  · exact .inr ⟨a, .inl rfl, ha, withRegs_of_ge_left ha b s k⟩

/-! ### The fetch -/

theorem memRead_of_lt {s : State} {a : Nat} (h : a < memSize) : memRead s a = .ok (s.mem.read a) := if_pos h

theorem memRead_of_ge {s : State} {a : Nat} (h : memSize ≤ a) :
    memRead s a = .error (.outOfRangeMem (BitVec.ofNat 9 a)) := if_neg (by omega)

/-- A fetch at 253 or below reads the three bytes. -/
theorem fetch_of_le {s : State} (h : s.pc.toNat ≤ 253) :
    fetch s = .ok ⟨s.mem.read s.pc.toNat, s.mem.read (s.pc.toNat + 1), s.mem.read (s.pc.toNat + 2)⟩ := by
  simp only [fetch, memRead_of_lt (show s.pc.toNat < memSize by simp only [memSize]; omega),
    memRead_of_lt (show s.pc.toNat + 1 < memSize by simp only [memSize]; omega),
    memRead_of_lt (show s.pc.toNat + 2 < memSize by simp only [memSize]; omega)]

/-- A fetch above 253 raises OutOfRange at the first address above 255. -/
theorem fetch_of_gt {s : State} (h : 253 < s.pc.toNat) :
    fetch s = .error (.outOfRangeMem (BitVec.ofNat 9 (max s.pc.toNat 256))) := by
  have hm : memSize = 256 := rfl
  rcases Nat.lt_or_ge s.pc.toNat 256 with h1 | h1
  · rcases Nat.lt_or_ge (s.pc.toNat + 1) 256 with h2 | h2
    · have e : s.pc.toNat + 2 = 256 := by omega
      simp only [fetch, memRead_of_lt (show s.pc.toNat < memSize by omega),
        memRead_of_lt (show s.pc.toNat + 1 < memSize by omega),
        e, memRead_of_ge (show memSize ≤ 256 from Nat.le_refl _), Nat.max_eq_right (Nat.le_of_lt h1)]
    · have e : s.pc.toNat + 1 = 256 := by omega
      simp only [fetch, memRead_of_lt (show s.pc.toNat < memSize by omega),
        e, memRead_of_ge (show memSize ≤ 256 from Nat.le_refl _), Nat.max_eq_right (Nat.le_of_lt h1)]
  · simp only [fetch, memRead_of_ge (show memSize ≤ s.pc.toNat by omega), Nat.max_eq_left h1]

theorem fetchInstr_of_gt {s : State} (h : 253 < s.pc.toNat) :
    fetchInstr s = .error (.outOfRangeMem (BitVec.ofNat 9 (max s.pc.toNat 256))) := by
  simp [fetchInstr, fetch_of_gt h]

theorem fetchInstr_of_le {s : State} (h : s.pc.toNat ≤ 253) :
    fetchInstr s =
      decodeLatches s.cfg ⟨s.mem.read s.pc.toNat, s.mem.read (s.pc.toNat + 1), s.mem.read (s.pc.toNat + 2)⟩ := by
  simp [fetchInstr, fetch_of_le h]

/-- A fetched instruction stands at 253 or below. -/
theorem pc_le_of_fetchInstr {s : State} {i : Instr} (h : fetchInstr s = .ok i) : s.pc.toNat ≤ 253 := by
  by_contra hc
  simp [fetchInstr_of_gt (s := s) (by omega)] at h

/-! ### The shared shapes of the families -/

theorem binaryAlu_of_names {a b : Byte} {i j : Fin 8} (ha : a.toNat = i.val) (hb : b.toNat = j.val) (s : State)
    (k : Mnemonic) (f : Byte → Byte → Byte) :
    binaryAlu k f a b s = .next ((s.setReg i (f (s.reg i) (s.reg j))).advance k) := withRegs_of_names ha hb s _

theorem unaryAlu_of_names {a : Byte} {i : Fin 8} (ha : a.toNat = i.val) (s : State) (k : Mnemonic) (f : Byte → Byte) :
    unaryAlu k f a s = .next ((s.setReg i (f (s.reg i))).advance k) := withReg_of_names ha s _

theorem emitReg_of_names {a : Byte} {i : Fin 8} (ha : a.toNat = i.val) (s : State) (k : Mnemonic) (kind : OutKind) :
    emitReg k kind a s = .next ((s.emit kind (s.reg i)).advance k) := withReg_of_names ha s _

theorem takeJump_of_names {a : Byte} {i : Fin 8} (ha : a.toNat = i.val) (s : State) :
    takeJump a s = .next (s.jumpTo (s.reg i)) := withReg_of_names ha s _

theorem relJumpIf_eq (k : Mnemonic) (cond : Bool) (a : Byte) (s : State) :
    relJumpIf k cond a s = jumpIf k (cond && s.cfg.relJumps == .branch) a s := by
  cases h : s.cfg.relJumps <;> simp [relJumpIf, h, jumpIf]

/-! ### pc -/

theorem nextPc_toNat {s : State} (hl : s.cfg.opcodes.legal = true) (hp : s.pc.toNat ≤ 253) (k : Mnemonic) :
    (s.nextPc k).toNat = s.pc.toNat + s.cfg.lenOf k := by
  have := Config.lenOf_le_three hl k
  simp [State.nextPc, BitVec.toNat_add]
  omega

theorem jumpTo_pc_toNat (s : State) (v : Byte) : (s.jumpTo v).pc.toNat = v.toNat := by
  have := v.isLt
  simp [State.jumpTo, BitVec.toNat_setWidth]
  omega

/-! ### What exec can answer -/

/-- A next state of an instruction that raised no fault, field by field. -/
structure Completed (i : Instr) (s t : State) : Prop where
  cfg : t.cfg = s.cfg
  ie  : t.ie = s.ie
  mem : t.mem = s.mem ∨ ∃ a v : Byte, t.mem = s.mem.write a.toNat v
  fl  : t.fl = s.fl ∨ ∃ u v, t.fl = compareFlags u v
  pc  : t.pc = s.nextPc i.mnemonic ∨ ∃ v : Byte, t.pc = v.setWidth 9
  run : (t.run = s.run ∧ t.stop = s.stop) ∨ (t.run = .halted ∧ ∃ c, t.stop = .halt c)
  out : t.out = s.out ∨ ∃ e, t.out = s.out ++ [e]

/-- Every answer of exec is a next state: OutOfRange(reg, byte) for a byte of 8 or more, or a completed instruction. -/
def ExecShape (i : Instr) (s : State) (r : Result) : Prop :=
  ∃ t, r = .next t ∧
    ((∃ b : Byte, 8 ≤ b.toNat ∧ t = s.faultWith (.outOfRangeReg b)) ∨ Completed i s t)

theorem ExecShape.of_completed {i : Instr} {s t : State} (h : Completed i s t) : ExecShape i s (.next t) :=
  ⟨t, rfl, .inr h⟩

theorem ExecShape.withReg {i : Instr} {s : State} {b : Byte} {k : Fin 8 → Result} (h : ∀ r, ExecShape i s (k r)) :
    ExecShape i s (withReg b s k) := by
  rcases withReg_cases b s k with ⟨r, _, e⟩ | ⟨hb, e⟩
  · exact e ▸ h r
  · exact ⟨_, e, .inl ⟨b, hb, rfl⟩⟩

theorem ExecShape.withRegs {i : Instr} {s : State} {a b : Byte} {k : Fin 8 → Fin 8 → Result}
    (h : ∀ p q, ExecShape i s (k p q)) : ExecShape i s (withRegs a b s k) :=
  .withReg fun p => .withReg fun q => h p q

theorem ExecShape.takeJump {i : Instr} {s : State} {a : Byte} : ExecShape i s (takeJump a s) :=
  .withReg fun _ => .of_completed ⟨rfl, rfl, .inl rfl, .inl rfl, .inr ⟨_, rfl⟩, .inl ⟨rfl, rfl⟩, .inl rfl⟩

theorem ExecShape.jumpIf {i : Instr} {s : State} {c : Bool} {a : Byte} :
    ExecShape i s (jumpIf i.mnemonic c a s) := by
  unfold Sys2Proof.Machine.jumpIf
  split
  · exact .takeJump
  · exact .of_completed ⟨rfl, rfl, .inl rfl, .inl rfl, .inl rfl, .inl ⟨rfl, rfl⟩, .inl rfl⟩

theorem ExecShape.relJumpIf {i : Instr} {s : State} {c : Bool} {a : Byte} :
    ExecShape i s (relJumpIf i.mnemonic c a s) := by
  rw [relJumpIf_eq]
  exact .jumpIf

theorem ExecShape.binaryAlu {i : Instr} {s : State} {f : Byte → Byte → Byte} {a b : Byte} :
    ExecShape i s (binaryAlu i.mnemonic f a b s) :=
  .withRegs fun _ _ => .of_completed ⟨rfl, rfl, .inl rfl, .inl rfl, .inl rfl, .inl ⟨rfl, rfl⟩, .inl rfl⟩

theorem ExecShape.unaryAlu {i : Instr} {s : State} {f : Byte → Byte} {a : Byte} :
    ExecShape i s (unaryAlu i.mnemonic f a s) :=
  .withReg fun _ => .of_completed ⟨rfl, rfl, .inl rfl, .inl rfl, .inl rfl, .inl ⟨rfl, rfl⟩, .inl rfl⟩

theorem ExecShape.emitReg {i : Instr} {s : State} {kind : OutKind} {a : Byte} :
    ExecShape i s (emitReg i.mnemonic kind a s) :=
  .withReg fun _ => .of_completed ⟨rfl, rfl, .inl rfl, .inl rfl, .inl rfl, .inl ⟨rfl, rfl⟩, .inr ⟨_, rfl⟩⟩

/-- What exec can answer, said once for every instruction. -/
theorem exec_shape (i : Instr) (s : State) : ExecShape i s (exec i s) := by
  cases i with
  | hlt =>
    simp only [exec, execHlt]
    exact .of_completed ⟨rfl, rfl, .inl rfl, .inl rfl, .inl rfl, .inr ⟨rfl, _, rfl⟩, .inl rfl⟩
  | ret =>
    simp only [exec, execRet]
    exact .of_completed ⟨rfl, rfl, .inl rfl, .inl rfl, .inr ⟨_, rfl⟩, .inl ⟨rfl, rfl⟩, .inl rfl⟩
  | iret =>
    simp only [exec, execIret]
    exact .of_completed ⟨rfl, rfl, .inl rfl, .inl rfl, .inl rfl, .inl ⟨rfl, rfl⟩, .inl rfl⟩
  | push a =>
    simp only [exec, execPush]
    exact .withReg fun _ =>
      .of_completed ⟨rfl, rfl, .inr ⟨_, _, rfl⟩, .inl rfl, .inl rfl, .inl ⟨rfl, rfl⟩, .inl rfl⟩
  | pop a =>
    simp only [exec, execPop]
    exact .withReg fun _ => .of_completed ⟨rfl, rfl, .inl rfl, .inl rfl, .inl rfl, .inl ⟨rfl, rfl⟩, .inl rfl⟩
  | prn a => exact ExecShape.emitReg (i := .prn a)
  | pra a => exact ExecShape.emitReg (i := .pra a)
  | call a =>
    simp only [exec, execCall]
    exact .withReg fun _ =>
      .of_completed ⟨rfl, rfl, .inr ⟨_, _, rfl⟩, .inl rfl, .inr ⟨_, rfl⟩, .inl ⟨rfl, rfl⟩, .inl rfl⟩
  | int a =>
    simp only [exec, execInt]
    exact .of_completed ⟨rfl, rfl, .inl rfl, .inl rfl, .inl rfl, .inl ⟨rfl, rfl⟩, .inl rfl⟩
  | jmp a =>
    simp only [exec, execJmp]
    exact .takeJump
  | jeq a => exact ExecShape.jumpIf (i := .jeq a)
  | jne a => exact ExecShape.jumpIf (i := .jne a)
  | jgt a => exact ExecShape.relJumpIf (i := .jgt a)
  | jlt a => exact ExecShape.relJumpIf (i := .jlt a)
  | jle a => exact ExecShape.relJumpIf (i := .jle a)
  | jge a => exact ExecShape.relJumpIf (i := .jge a)
  | inc a => exact ExecShape.unaryAlu (i := .inc a)
  | dec a => exact ExecShape.unaryAlu (i := .dec a)
  | not a b =>
    simp only [exec, execNot]
    split
    · exact ExecShape.binaryAlu (i := .not a b)
    · exact ExecShape.unaryAlu (i := .not a b)
  | ldi a b =>
    simp only [exec, execLdi]
    exact .withReg fun _ => .of_completed ⟨rfl, rfl, .inl rfl, .inl rfl, .inl rfl, .inl ⟨rfl, rfl⟩, .inl rfl⟩
  | ld a b =>
    simp only [exec, execLd]
    exact .withRegs fun _ _ => .of_completed ⟨rfl, rfl, .inl rfl, .inl rfl, .inl rfl, .inl ⟨rfl, rfl⟩, .inl rfl⟩
  | st a b =>
    simp only [exec, execSt]
    exact .withRegs fun _ _ =>
      .of_completed ⟨rfl, rfl, .inr ⟨_, _, rfl⟩, .inl rfl, .inl rfl, .inl ⟨rfl, rfl⟩, .inl rfl⟩
  | add a b => exact ExecShape.binaryAlu (i := .add a b)
  | sub a b => exact ExecShape.binaryAlu (i := .sub a b)
  | mul a b => exact ExecShape.binaryAlu (i := .mul a b)
  | mod a b =>
    simp only [exec, execMod]
    refine .withRegs fun p q => ?_
    split
    · exact .of_completed ⟨rfl, rfl, .inl rfl, .inl rfl, .inl rfl, .inr ⟨rfl, _, rfl⟩, .inl rfl⟩
    · exact .of_completed ⟨rfl, rfl, .inl rfl, .inl rfl, .inl rfl, .inl ⟨rfl, rfl⟩, .inl rfl⟩
  | cmp a b =>
    simp only [exec, execCmp]
    exact .withRegs fun _ _ =>
      .of_completed ⟨rfl, rfl, .inl rfl, .inr ⟨_, _, rfl⟩, .inl rfl, .inl ⟨rfl, rfl⟩, .inl rfl⟩
  | and a b => exact ExecShape.binaryAlu (i := .and a b)
  | or a b => exact ExecShape.binaryAlu (i := .or a b)
  | xor a b => exact ExecShape.binaryAlu (i := .xor a b)
  | shl a b => exact ExecShape.binaryAlu (i := .shl a b)
  | shr a b => exact ExecShape.binaryAlu (i := .shr a b)

/-! ### The step -/

theorem step_of_error {s : State} (hr : s.run = .running) {c : FaultCause} (h : fetchInstr s = .error c) :
    step s = .next (s.faultWith c) := by
  simp [step, hr, h, raise]

theorem step_of_ok {s : State} (hr : s.run = .running) {i : Instr} (h : fetchInstr s = .ok i) : step s = exec i s := by
  simp [step, hr, h]

theorem step_of_not_running {s : State} (hr : s.run ≠ .running) : step s = .next s := by
  simp [step, hr, restStep]

/-- All that a step can do: rest, raise the fault the fetch or the decode found, or execute the fetched instruction. -/
theorem step_cases (s : State) :
    (s.run ≠ .running ∧ step s = .next s) ∨
      (s.run = .running ∧ ∃ c, fetchInstr s = .error c ∧ step s = .next (s.faultWith c)) ∨
      (s.run = .running ∧ ∃ i, fetchInstr s = .ok i ∧ step s = exec i s) := by
  by_cases hr : s.run = .running
  · cases h : fetchInstr s with
    | error c => exact .inr (.inl ⟨hr, c, rfl, step_of_error hr h⟩)
    | ok i => exact .inr (.inr ⟨hr, i, rfl, step_of_ok hr h⟩)
  · exact .inl ⟨hr, step_of_not_running hr⟩

end Sys2Proof.Machine
end

