-- ==== Sys2Proof/Laws/Exec.lean ====
section
/-! SUPPORT. One equation for each meaning, on operand bytes that name registers: what exec answers, in the named operations.
Later proofs cite it and do not unfold the meaning. -/

namespace Sys2Proof.Machine

open Sys2Proof

theorem exec_ldi {a : Byte} {i : Fin 8} (hi : a.toNat = i.val) (b : Byte) (s : State) :
    exec (.ldi a b) s = .next ((s.setReg i b).advance .ldi) := by
  simp only [exec, execLdi, withReg_of_names hi]

theorem exec_add {a b : Byte} {i j : Fin 8} (hi : a.toNat = i.val) (hj : b.toNat = j.val) (s : State) :
    exec (.add a b) s = .next ((s.setReg i (aluAdd (s.reg i) (s.reg j))).advance .add) := by
  simp only [exec, execAdd, binaryAlu_of_names hi hj]

theorem exec_sub {a b : Byte} {i j : Fin 8} (hi : a.toNat = i.val) (hj : b.toNat = j.val) (s : State) :
    exec (.sub a b) s = .next ((s.setReg i (aluSub (s.reg i) (s.reg j))).advance .sub) := by
  simp only [exec, execSub, binaryAlu_of_names hi hj]

theorem exec_mul {a b : Byte} {i j : Fin 8} (hi : a.toNat = i.val) (hj : b.toNat = j.val) (s : State) :
    exec (.mul a b) s = .next ((s.setReg i (aluMul (s.reg i) (s.reg j))).advance .mul) := by
  simp only [exec, execMul, binaryAlu_of_names hi hj]

theorem exec_and {a b : Byte} {i j : Fin 8} (hi : a.toNat = i.val) (hj : b.toNat = j.val) (s : State) :
    exec (.and a b) s = .next ((s.setReg i (aluAnd (s.reg i) (s.reg j))).advance .and) := by
  simp only [exec, execAnd, binaryAlu_of_names hi hj]

theorem exec_or {a b : Byte} {i j : Fin 8} (hi : a.toNat = i.val) (hj : b.toNat = j.val) (s : State) :
    exec (.or a b) s = .next ((s.setReg i (aluOr (s.reg i) (s.reg j))).advance .or) := by
  simp only [exec, execOr, binaryAlu_of_names hi hj]

theorem exec_xor {a b : Byte} {i j : Fin 8} (hi : a.toNat = i.val) (hj : b.toNat = j.val) (s : State) :
    exec (.xor a b) s = .next ((s.setReg i (aluXor (s.reg i) (s.reg j))).advance .xor) := by
  simp only [exec, execXor, binaryAlu_of_names hi hj]

theorem exec_shl {a b : Byte} {i j : Fin 8} (hi : a.toNat = i.val) (hj : b.toNat = j.val) (s : State) :
    exec (.shl a b) s = .next ((s.setReg i (aluShl (s.reg i) (s.reg j))).advance .shl) := by
  simp only [exec, execShl, binaryAlu_of_names hi hj]

theorem exec_shr {a b : Byte} {i j : Fin 8} (hi : a.toNat = i.val) (hj : b.toNat = j.val) (s : State) :
    exec (.shr a b) s = .next ((s.setReg i (aluShr (s.reg i) (s.reg j))).advance .shr) := by
  simp only [exec, execShr, binaryAlu_of_names hi hj]

theorem exec_ld {a b : Byte} {i j : Fin 8} (hi : a.toNat = i.val) (hj : b.toNat = j.val) (s : State) :
    exec (.ld a b) s = .next ((s.setReg i (s.load (s.reg j))).advance .ld) := by
  simp only [exec, execLd, withRegs_of_names hi hj]

theorem exec_st {a b : Byte} {i j : Fin 8} (hi : a.toNat = i.val) (hj : b.toNat = j.val) (s : State) :
    exec (.st a b) s = .next ((s.store (s.reg i) (s.reg j)).advance .st) := by
  simp only [exec, execSt, withRegs_of_names hi hj]

theorem exec_prn {a : Byte} {i : Fin 8} (hi : a.toNat = i.val) (s : State) :
    exec (.prn a) s = .next ((s.emit .dec (s.reg i)).advance .prn) := by
  simp only [exec, execPrn, emitReg_of_names hi]

theorem exec_pra {a : Byte} {i : Fin 8} (hi : a.toNat = i.val) (s : State) :
    exec (.pra a) s = .next ((s.emit .chr (s.reg i)).advance .pra) := by
  simp only [exec, execPra, emitReg_of_names hi]

theorem exec_push {a : Byte} {i : Fin 8} (hi : a.toNat = i.val) (s : State) :
    exec (.push a) s = .next ((s.decSp.store s.decSp.sp (s.decSp.reg i)).advance .push) := by
  simp only [exec, execPush, withReg_of_names hi]

theorem exec_pop {a : Byte} {i : Fin 8} (hi : a.toNat = i.val) (s : State) :
    exec (.pop a) s = .next ((s.setReg i (s.load s.sp)).incSp.advance .pop) := by
  simp only [exec, execPop, withReg_of_names hi]

theorem exec_call {a : Byte} {i : Fin 8} (hi : a.toNat = i.val) (s : State) :
    exec (.call a) s = .next ((s.decSp.store s.decSp.sp s.returnAddress).jumpTo (s.decSp.reg i)) := by
  simp only [exec, execCall, withReg_of_names hi, State.store_reg]

theorem exec_jmp {a : Byte} {i : Fin 8} (hi : a.toNat = i.val) (s : State) :
    exec (.jmp a) s = .next (s.jumpTo (s.reg i)) := by
  simp only [exec, execJmp, takeJump_of_names hi]

theorem exec_inc {a : Byte} {i : Fin 8} (hi : a.toNat = i.val) (s : State) :
    exec (.inc a) s = .next ((s.setReg i (aluInc (s.reg i))).advance .inc) := by
  simp only [exec, execInc, unaryAlu_of_names hi]

theorem exec_dec {a : Byte} {i : Fin 8} (hi : a.toNat = i.val) (s : State) :
    exec (.dec a) s = .next ((s.setReg i (aluDec (s.reg i))).advance .dec) := by
  simp only [exec, execDec, unaryAlu_of_names hi]

theorem exec_cmp {a b : Byte} {i j : Fin 8} (hi : a.toNat = i.val) (hj : b.toNat = j.val) (s : State) :
    exec (.cmp a b) s = .next ((s.setFl (compareFlags (s.reg i) (s.reg j))).advance .cmp) := by
  simp only [exec, execCmp, withRegs_of_names hi hj]

theorem exec_mod {a b : Byte} {i j : Fin 8} (hi : a.toNat = i.val) (hj : b.toNat = j.val) (s : State) :
    exec (.mod a b) s =
      if s.reg j = 0 then .next ((s.haltWith .modZero).advance .mod)
      else .next ((s.setReg i (aluMod (s.reg i) (s.reg j))).advance .mod) := by
  simp only [exec, execMod, withRegs_of_names hi hj]

theorem exec_not_operandB {a b : Byte} {i j : Fin 8} (hi : a.toNat = i.val) (hj : b.toNat = j.val) (s : State)
    (h : s.cfg.notSource = .operandB) :
    exec (.not a b) s = .next ((s.setReg i (aluNot (s.reg j))).advance .not) := by
  simp only [exec, execNot, h, binaryAlu_of_names hi hj]

theorem exec_not_operandA {a : Byte} {i : Fin 8} (hi : a.toNat = i.val) (b : Byte) (s : State)
    (h : s.cfg.notSource = .operandA) :
    exec (.not a b) s = .next ((s.setReg i (aluNot (s.reg i))).advance .not) := by
  simp only [exec, execNot, h, unaryAlu_of_names hi]

theorem exec_hlt (s : State) : exec .hlt s = .next ((s.haltWith .hlt).advance .hlt) := rfl

theorem exec_ret (s : State) : exec .ret s = .next (s.jumpTo (s.load s.sp)).incSp := rfl

theorem exec_int (a : Byte) (s : State) : exec (.int a) s = .next (s.advance .int) := rfl

theorem exec_iret (s : State) : exec .iret s = .next (s.advance .iret) := rfl

theorem exec_jeq (a : Byte) (s : State) : exec (.jeq a) s = jumpIf .jeq (condEq s.fl) a s := rfl

theorem exec_jne (a : Byte) (s : State) : exec (.jne a) s = jumpIf .jne (condNe s.fl) a s := rfl

theorem exec_jgt (a : Byte) (s : State) :
    exec (.jgt a) s = jumpIf .jgt (condGt s.fl && s.cfg.relJumps == .branch) a s := relJumpIf_eq ..

theorem exec_jlt (a : Byte) (s : State) :
    exec (.jlt a) s = jumpIf .jlt (condLt s.fl && s.cfg.relJumps == .branch) a s := relJumpIf_eq ..

theorem exec_jle (a : Byte) (s : State) :
    exec (.jle a) s = jumpIf .jle (condLe s.fl && s.cfg.relJumps == .branch) a s := relJumpIf_eq ..

theorem exec_jge (a : Byte) (s : State) :
    exec (.jge a) s = jumpIf .jge (condGe s.fl && s.cfg.relJumps == .branch) a s := relJumpIf_eq ..

theorem jumpIf_taken {c : Bool} (hc : c = true) {a : Byte} {i : Fin 8} (hi : a.toNat = i.val) (k : Mnemonic) (s : State) :
    jumpIf k c a s = .next (s.jumpTo (s.reg i)) := by
  rw [jumpIf, if_pos hc, takeJump_of_names hi]

theorem jumpIf_not_taken {c : Bool} (hc : c = false) (k : Mnemonic) (a : Byte) (s : State) :
    jumpIf k c a s = .next (s.advance k) := by
  rw [jumpIf, hc]
  rfl

end Sys2Proof.Machine
end

