-- ==== Sys2Proof/Laws/Memory.lean ====
section
/-! SUPPORT. The laws of memory: a read after a write (for every list, canonical or not), and that every memory operation
keeps the canonical form, in which equal contents are equal data. -/

namespace Sys2Proof.Machine

open Sys2Proof

/-! ### Read after write -/

theorem Memory.read_list (m : Memory) (a b : Nat) (v : Byte) (h : b < a → m.read b = 0) (h' : b = a → m.read b = 0) :
    (Memory.list a v m).read b = if b = a then v else m.read b := by
  unfold Memory.list
  by_cases hv : v = 0
  · by_cases hba : b = a <;> simp_all
  · rw [if_neg hv]
    rcases Nat.lt_trichotomy a b with h1 | h1 | h1
    · simp [Memory.read, h1, Nat.ne_of_gt h1]
    · simp [Memory.read, h1]
    · simp [Memory.read, Nat.not_lt_of_gt h1, Nat.ne_of_gt h1, Nat.ne_of_lt h1, h h1]

theorem Memory.read_dropWhile (m : Memory) (a b : Nat) :
    Memory.read (m.dropWhile fun c => decide (c.1 ≤ a)) b = if a < b then m.read b else 0 := by
  induction m with
  | nil => simp [Memory.read]
  | cons c m ih =>
    obtain ⟨k, w⟩ := c
    by_cases hk : k ≤ a
    · simp only [List.dropWhile, hk, decide_true, ih]
      by_cases hab : a < b
      · simp [hab, Memory.read, Nat.lt_of_le_of_lt hk hab]
      · simp [hab]
    · simp only [List.dropWhile, hk, decide_false]
      by_cases hab : a < b
      · simp [hab]
      · have h1 : ¬ k < b := by omega
        have h2 : k ≠ b := by omega
        simp [hab, Memory.read, h1, h2]

/-- The one law of a write: its cell holds the byte, every other cell what it held. -/
theorem Memory.read_write (m : Memory) (a b : Nat) (v : Byte) :
    (m.write a v).read b = if b = a then v else m.read b := by
  induction m with
  | nil => exact Memory.read_list [] a b v (fun _ => rfl) (fun _ => rfl)
  | cons c m ih =>
    obtain ⟨k, w⟩ := c
    unfold Memory.write
    by_cases hk : k < a
    · rw [if_pos hk]
      rcases Nat.lt_trichotomy k b with h | h | h
      · simp only [Memory.read, h, if_true, ih]
      · subst h
        simp [Memory.read, Nat.ne_of_lt hk]
      · have h1 : b ≠ a := by omega
        simp [Memory.read, Nat.not_lt_of_gt h, Nat.ne_of_gt h, h1]
    · rw [if_neg hk, Memory.read_list]
      · rw [Memory.read_dropWhile]
        by_cases hb : b = a
        · simp [hb]
        · rw [if_neg hb, if_neg hb]
          by_cases hab : a < b
          · rw [if_pos hab]
          · have h1 : ¬ k < b := by omega
            have h2 : k ≠ b := by omega
            simp [hab, Memory.read, h1, h2]
      · intro h
        rw [Memory.read_dropWhile, if_neg (by omega)]
      · intro h
        rw [Memory.read_dropWhile, if_neg (by omega)]

@[simp] theorem Memory.read_write_self (m : Memory) (a : Nat) (v : Byte) : (m.write a v).read a = v := by
  simp [Memory.read_write]

theorem Memory.read_write_ne (m : Memory) {a b : Nat} (v : Byte) (h : b ≠ a) : (m.write a v).read b = m.read b := by
  simp [Memory.read_write, h]

@[simp] theorem Memory.read_nil (a : Nat) : Memory.read [] a = 0 := rfl

/-- A run of writes at rising addresses: its cells hold the bytes, every other cell what it held. -/
theorem Memory.read_writeFrom (bs : List Byte) (m : Memory) (a b : Nat) :
    (Memory.writeFrom m a bs).read b = if a ≤ b ∧ b < a + bs.length then bs.getD (b - a) 0 else m.read b := by
  induction bs generalizing m a with
  | nil => simp [Memory.writeFrom, show ¬ (a ≤ b ∧ b < a) by omega]
  | cons v bs ih =>
    simp only [Memory.writeFrom, ih, Memory.read_write, List.length_cons]
    by_cases hb : b = a
    · subst hb
      rw [if_neg (by omega), if_pos rfl, if_pos (by omega), Nat.sub_self, List.getD_cons_zero]
    · by_cases h : a + 1 ≤ b ∧ b < a + 1 + bs.length
      · have e : b - a = (b - (a + 1)) + 1 := by omega
        rw [if_pos h, if_pos (by omega), e, List.getD_cons_succ]
      · rw [if_neg h, if_neg hb, if_neg (by omega)]

theorem read_memoryOfImage (image : List Byte) (b : Nat) : (memoryOfImage image).read b = image.getD b 0 := by
  rw [memoryOfImage, Memory.read_writeFrom]
  by_cases h : b < image.length
  · simp [h]
  · simp [h]

/-! ### The canonical form -/

theorem Memory.wf_nil : Memory.wf [] := by simp [Memory.wf]

theorem Memory.wf_cons {k : Nat} {w : Byte} {m : Memory} :
    Memory.wf ((k, w) :: m) ↔ ((∀ c ∈ m, k < c.1) ∧ k < memSize ∧ w ≠ 0) ∧ Memory.wf m := by
  simp only [Memory.wf, List.pairwise_cons, List.mem_cons, forall_eq_or_imp]
  tauto

theorem Memory.wf_list {a : Nat} {v : Byte} {m : Memory} (hm : m.wf) (ha : a < memSize) (h : ∀ c ∈ m, a < c.1) :
    (Memory.list a v m).wf := by
  unfold Memory.list
  split
  · exact hm
  · exact Memory.wf_cons.2 ⟨⟨h, ha, ‹_›⟩, hm⟩

theorem Memory.lt_of_mem_dropWhile {m : Memory} (hm : m.wf) (a : Nat) :
    ∀ c ∈ m.dropWhile (fun c => decide (c.1 ≤ a)), a < c.1 := by
  induction m with
  | nil => simp
  | cons c m ih =>
    obtain ⟨k, w⟩ := c
    have h := Memory.wf_cons.1 hm
    by_cases hk : k ≤ a
    · simpa [List.dropWhile, hk] using ih h.2
    · intro c hc
      simp only [List.dropWhile, hk, decide_false, List.mem_cons] at hc
      rcases hc with rfl | hc
      · simpa using hk
      · exact Nat.lt_trans (Nat.lt_of_not_le hk) (h.1.1 c hc)

theorem Memory.wf_dropWhile {m : Memory} (hm : m.wf) (p : Host.Cell → Bool) : Memory.wf (m.dropWhile p) := by
  have hs : (m.dropWhile p).Sublist m := List.dropWhile_sublist p
  exact ⟨hm.1.sublist hs, fun c hc => hm.2 c (hs.subset hc)⟩

theorem Memory.mem_write_fst {m : Memory} {a : Nat} {v : Byte} {c : Host.Cell} (h : c ∈ m.write a v) :
    c.1 = a ∨ c ∈ m := by
  have hl : ∀ n : Memory, c ∈ Memory.list a v n → c.1 = a ∨ c ∈ n := by
    intro n hn
    unfold Memory.list at hn
    split at hn
    · exact .inr hn
    · rcases List.mem_cons.1 hn with rfl | hn
      · exact .inl rfl
      · exact .inr hn
  induction m with
  | nil => exact hl [] h
  | cons d m ih =>
    obtain ⟨k, w⟩ := d
    unfold Memory.write at h
    split at h
    · rcases List.mem_cons.1 h with rfl | h
      · exact .inr (List.mem_cons_self ..)
      · exact (ih h).imp_right (List.mem_cons_of_mem _)
    · exact (hl _ h).imp_right fun h => (List.dropWhile_sublist _).subset h

/-- Every write of an existing address keeps the canonical form. -/
theorem Memory.wf_write {m : Memory} (hm : m.wf) {a : Nat} (ha : a < memSize) (v : Byte) : (m.write a v).wf := by
  induction m with
  | nil => exact Memory.wf_list Memory.wf_nil ha (by simp)
  | cons c m ih =>
    obtain ⟨k, w⟩ := c
    have h := Memory.wf_cons.1 hm
    unfold Memory.write
    by_cases hk : k < a
    · rw [if_pos hk]
      refine Memory.wf_cons.2 ⟨⟨fun c hc => ?_, h.1.2⟩, ih h.2⟩
      rcases Memory.mem_write_fst hc with hc | hc
      · exact hc ▸ hk
      · exact h.1.1 c hc
    · rw [if_neg hk]
      exact Memory.wf_list (Memory.wf_dropWhile hm _) ha (Memory.lt_of_mem_dropWhile hm a)

theorem Memory.wf_write_byte {m : Memory} (hm : m.wf) (a v : Byte) : (m.write a.toNat v).wf :=
  Memory.wf_write hm (by have := a.isLt; simpa [memSize] using this) v

theorem Memory.wf_writeFrom {bs : List Byte} {m : Memory} (hm : m.wf) {a : Nat} (h : a + bs.length ≤ memSize) :
    (Memory.writeFrom m a bs).wf := by
  induction bs generalizing m a with
  | nil => exact hm
  | cons v bs ih =>
    simp only [List.length_cons] at h
    exact ih (Memory.wf_write hm (by omega) v) (by omega)

theorem wf_memoryOfImage {image : List Byte} (h : image.length ≤ memSize) : (memoryOfImage image).wf :=
  Memory.wf_writeFrom Memory.wf_nil (by omega)

theorem State.store_wf {s : State} (h : s.mem.wf) (a v : Byte) : (s.store a v).mem.wf := Memory.wf_write_byte h a v

theorem State.place_wf {s : State} (h : s.mem.wf) (a : Nat) (v : Byte) : (s.place a v).mem.wf := by
  unfold State.place
  split
  · exact Memory.wf_write h ‹_› v
  · exact h

theorem State.placeInstr_wf {s : State} (h : s.mem.wf) (op a b : Byte) : (s.placeInstr op a b).mem.wf :=
  State.place_wf (State.place_wf (State.place_wf h _ _) _ _) _ _

theorem State.withFetchWord_wf {s : State} (h : s.mem.wf) (nbits w : Nat) : (s.withFetchWord nbits w).mem.wf :=
  State.placeInstr_wf h _ _ _

theorem State.resetWith_wf (cfg : Config) : (State.resetWith cfg).mem.wf := Memory.wf_nil

theorem State.reset_wf : State.reset.mem.wf := State.resetWith_wf _

/-- In a canonical list a cell below every listed address reads 0. -/
theorem Memory.read_eq_zero_of_lt {m : Memory} {a : Nat} (h : ∀ c ∈ m, a < c.1) : m.read a = 0 := by
  cases m with
  | nil => rfl
  | cons c m =>
    obtain ⟨k, w⟩ := c
    have hk : a < k := h (k, w) (List.mem_cons_self ..)
    have h1 : ¬ k < a := by omega
    have h2 : k ≠ a := by omega
    simp [Memory.read, h1, h2]

/-- Equal contents are equal data. -/
theorem Memory.eq_of_read_eq {m n : Memory} (hm : m.wf) (hn : n.wf) (h : ∀ a, m.read a = n.read a) : m = n := by
  induction m generalizing n with
  | nil =>
    cases n with
    | nil => rfl
    | cons d n =>
      obtain ⟨l, u⟩ := d
      have := (Memory.wf_cons.1 hn).1.2.2
      exact absurd (h l).symm (by simpa [Memory.read] using this)
  | cons c m ih =>
    obtain ⟨k, w⟩ := c
    have hm' := Memory.wf_cons.1 hm
    cases n with
    | nil => exact absurd (h k) (by simpa [Memory.read] using hm'.1.2.2)
    | cons d n =>
      obtain ⟨l, u⟩ := d
      have hn' := Memory.wf_cons.1 hn
      have hkl : k = l := by
        rcases Nat.lt_trichotomy k l with hl | hl | hl
        · have := h k
          rw [Memory.read_eq_zero_of_lt (m := (l, u) :: n)] at this
          · exact absurd this (by simpa [Memory.read] using hm'.1.2.2)
          · intro c hc
            rcases List.mem_cons.1 hc with rfl | hc
            · exact hl
            · exact Nat.lt_trans hl (hn'.1.1 c hc)
        · exact hl
        · have := h l
          rw [Memory.read_eq_zero_of_lt (m := (k, w) :: m)] at this
          · exact absurd this.symm (by simpa [Memory.read] using hn'.1.2.2)
          · intro c hc
            rcases List.mem_cons.1 hc with rfl | hc
            · exact hl
            · exact Nat.lt_trans hl (hm'.1.1 c hc)
      subst hkl
      have hwu : w = u := by simpa [Memory.read] using h k
      subst hwu
      congr 1
      refine ih hm'.2 hn'.2 fun a => ?_
      rcases Nat.lt_or_ge k a with ha | ha
      · simpa [Memory.read, ha] using h a
      · rw [Memory.read_eq_zero_of_lt (fun c hc => Nat.lt_of_le_of_lt ha (hm'.1.1 c hc)),
          Memory.read_eq_zero_of_lt (fun c hc => Nat.lt_of_le_of_lt ha (hn'.1.1 c hc))]

end Sys2Proof.Machine
end

