-- ==== Sys2Proof/Laws/PerInstr.lean ====
section
/-! SUPPORT. Facts made per instruction. EncodedLength: under the default map with INC and DEC admitted, an instruction is
well formed and its encoding has one byte more than its format has operand bytes, which bits 7:6 of its opcode byte say
(R71, R74). -/

namespace Sys2Proof.Laws.EncodedLength

open Sys2Proof

/-- The instruction's encoding has the length of its format, and its opcode byte says so. -/
def Statement (i : Instr) : Prop :=
  i.WellFormed Config.wholeTable ∧
    (encode Config.wholeTable i).length = i.mnemonic.format.operandCount + 1 ∧
    lengthOf (opcodeOf Config.wholeTable i) = i.mnemonic.format.operandCount + 1

/-- The default map's byte of a mnemonic gives its format's length (R74, R78). -/
theorem lengthOf_byteOf (k : Mnemonic) :
    lengthOf (Config.wholeTable.opcodes.byteOf k) = k.format.operandCount + 1 := by
  cases k <;> decide

theorem length_encode (i : Instr) : (encode Config.wholeTable i).length = i.mnemonic.format.operandCount + 1 := by
  have e : Config.wholeTable.lenOf i.mnemonic = i.mnemonic.format.operandCount + 1 := lengthOf_byteOf i.mnemonic
  rw [encode, List.length_take, e]
  cases i <;> rfl

theorem hlt : Statement .hlt := ⟨rfl, length_encode _, lengthOf_byteOf _⟩

theorem ret : Statement .ret := ⟨rfl, length_encode _, lengthOf_byteOf _⟩

theorem iret : Statement .iret := ⟨rfl, length_encode _, lengthOf_byteOf _⟩

theorem push (a : Byte) : Statement (.push a) := ⟨rfl, length_encode _, lengthOf_byteOf _⟩

theorem pop (a : Byte) : Statement (.pop a) := ⟨rfl, length_encode _, lengthOf_byteOf _⟩

theorem prn (a : Byte) : Statement (.prn a) := ⟨rfl, length_encode _, lengthOf_byteOf _⟩

theorem pra (a : Byte) : Statement (.pra a) := ⟨rfl, length_encode _, lengthOf_byteOf _⟩

theorem call (a : Byte) : Statement (.call a) := ⟨rfl, length_encode _, lengthOf_byteOf _⟩

theorem int (a : Byte) : Statement (.int a) := ⟨rfl, length_encode _, lengthOf_byteOf _⟩

theorem jmp (a : Byte) : Statement (.jmp a) := ⟨rfl, length_encode _, lengthOf_byteOf _⟩

theorem jeq (a : Byte) : Statement (.jeq a) := ⟨rfl, length_encode _, lengthOf_byteOf _⟩

theorem jne (a : Byte) : Statement (.jne a) := ⟨rfl, length_encode _, lengthOf_byteOf _⟩

theorem jgt (a : Byte) : Statement (.jgt a) := ⟨rfl, length_encode _, lengthOf_byteOf _⟩

theorem jlt (a : Byte) : Statement (.jlt a) := ⟨rfl, length_encode _, lengthOf_byteOf _⟩

theorem jle (a : Byte) : Statement (.jle a) := ⟨rfl, length_encode _, lengthOf_byteOf _⟩

theorem jge (a : Byte) : Statement (.jge a) := ⟨rfl, length_encode _, lengthOf_byteOf _⟩

theorem inc (a : Byte) : Statement (.inc a) := ⟨rfl, length_encode _, lengthOf_byteOf _⟩

theorem dec (a : Byte) : Statement (.dec a) := ⟨rfl, length_encode _, lengthOf_byteOf _⟩

theorem not (a b : Byte) : Statement (.not a b) := ⟨rfl, length_encode _, lengthOf_byteOf _⟩

theorem ldi (a b : Byte) : Statement (.ldi a b) := ⟨rfl, length_encode _, lengthOf_byteOf _⟩

theorem ld (a b : Byte) : Statement (.ld a b) := ⟨rfl, length_encode _, lengthOf_byteOf _⟩

theorem st (a b : Byte) : Statement (.st a b) := ⟨rfl, length_encode _, lengthOf_byteOf _⟩

theorem add (a b : Byte) : Statement (.add a b) := ⟨rfl, length_encode _, lengthOf_byteOf _⟩

theorem sub (a b : Byte) : Statement (.sub a b) := ⟨rfl, length_encode _, lengthOf_byteOf _⟩

theorem mul (a b : Byte) : Statement (.mul a b) := ⟨rfl, length_encode _, lengthOf_byteOf _⟩

theorem mod (a b : Byte) : Statement (.mod a b) := ⟨rfl, length_encode _, lengthOf_byteOf _⟩

theorem cmp (a b : Byte) : Statement (.cmp a b) := ⟨rfl, length_encode _, lengthOf_byteOf _⟩

theorem and (a b : Byte) : Statement (.and a b) := ⟨rfl, length_encode _, lengthOf_byteOf _⟩

theorem or (a b : Byte) : Statement (.or a b) := ⟨rfl, length_encode _, lengthOf_byteOf _⟩

theorem xor (a b : Byte) : Statement (.xor a b) := ⟨rfl, length_encode _, lengthOf_byteOf _⟩

theorem shl (a b : Byte) : Statement (.shl a b) := ⟨rfl, length_encode _, lengthOf_byteOf _⟩

theorem shr (a b : Byte) : Statement (.shr a b) := ⟨rfl, length_encode _, lengthOf_byteOf _⟩

end Sys2Proof.Laws.EncodedLength
end

