-- ==== Sys2Proof/Laws/Run.lean ====
section
/-! SUPPORT. Runs of several steps: the model's runSteps is the host's run, and how a run is put together. -/

namespace Sys2Proof.Machine

open Sys2Proof

/-! ### One step of the host's run, for each outcome -/

theorem core_run_of_next (M : Host.Core) (n : Nat) (s t : M.State) (h : M.step s = .next t) :
    M.run (n + 1) s = M.run n t := by
  simp [Host.Core.run, h]

theorem core_run_of_fault (M : Host.Core) (n : Nat) (s : M.State) (r : M.Fault) (h : M.step s = .fault r) :
    M.run (n + 1) s = .fault r := by
  simp [Host.Core.run, h]

theorem core_run_of_refused (M : Host.Core) (n : Nat) (s : M.State) (r : M.Refusal) (h : M.step s = .refused r) :
    M.run (n + 1) s = .refused r := by
  simp [Host.Core.run, h]

theorem runSteps_eq_core_run (n : Nat) (s : State) : runSteps n s = Host.Core.run Sys2Proof.core n s := by
  induction n generalizing s with
  | zero => rfl
  | succ n ih =>
    rw [runSteps]
    cases h : step s with
    | next t => exact (ih t).trans (core_run_of_next Sys2Proof.core n s t h).symm
    | fault r => exact (core_run_of_fault Sys2Proof.core n s r h).symm
    | refused r => exact (core_run_of_refused Sys2Proof.core n s r h).symm

/-! ### Putting a run together -/

theorem Reaches.zero (s : State) : Reaches s 0 s := rfl

theorem Reaches.succ {s t u : State} {n : Nat} (h : step s = .next t) (h' : Reaches t n u) : Reaches s (n + 1) u := by
  simpa [Reaches, runSteps, h] using h'

end Sys2Proof.Machine
end

