-- ==== Sys2Proof/Tests/Slice0.lean ====
section
/-! SUPPORT. The model's own tests: ill-formed terms refused, a word of each instruction from R78's table, single steps from
95_test_vectors.md (the vector stands before each test), and a witness for each obligation with hypotheses. -/

namespace Sys2Proof.Tests

open Sys2Proof Sys2Proof.Machine

/-! ## Helpers -/

/-- The first four registers given, R4 to R6 zero, SP given. -/
def regs (r0 r1 r2 r3 sp : Byte) : Vector Byte 8 := #v[r0, r1, r2, r3, 0, 0, 0, sp]

/-- A Running core with registers, FL, pc and bytes from pc on, under given parameters. -/
def coreWith (cfg : Config) (x : Vector Byte 8) (fl : Byte) (pc : Nat) (bytes : List Byte) : State :=
  { State.resetWith cfg with
    x := x, fl := fl, pc := BitVec.ofNat 9 pc, run := .running, mem := Memory.writeFrom [] pc bytes }

/-- The same under the default parameters. -/
def coreAt (x : Vector Byte 8) (fl : Byte) (pc : Nat) (bytes : List Byte) : State := coreWith .default x fl pc bytes

/-- One more byte of memory. -/
def poke (s : State) (a : Nat) (v : Byte) : State := { s with mem := s.mem.write a v }

/-- The answer is a next state that satisfies p. -/
def answers (r : Result) (p : State → Bool) : Bool :=
  match r with
  | .next t => p t
  | .fault _ => false
  | .refused _ => false

/-- The answer is this refusal. -/
def refusedWith (r : Result) (e : Refusal) : Bool :=
  match r with
  | .next _ => false
  | .fault _ => false
  | .refused x => x == e

/-- The answer is this load error. -/
def rejectedWith (r : Result) (e : Fault) : Bool :=
  match r with
  | .next _ => false
  | .fault x => x == e
  | .refused _ => false

theorem of_answers {r : Result} {p : State → Bool} (h : answers r p = true) : ∃ t, r = .next t ∧ p t = true := by
  cases r with
  | next t => exact ⟨t, rfl, h⟩
  | fault x => cases h
  | refused x => cases h

/-- Two states are the same but for run and stop, the state faulted with c (R98). -/
def faultedWith (s : State) (c : FaultCause) (t : State) : Bool :=
  t == { s with run := .faulted, stop := .fault c }

/-! ## WellFormed: an ill-formed term for each check -/

/-- The alternative parameters the tests use: INC and DEC admitted, NOT_SOURCE = operand_a, REL_JUMPS = advance. -/
def otherConfig : Config :=
  { Config.default with admitIncDec := true, notSource := .operandA, relJumps := .advance }

/-- A legal map that is not R78's: IRET with one operand byte, NOT with two (R79 leaves these counts open). -/
def otherMap : OpcodeMap := { OpcodeMap.ls8 with iret := 0x53, not := 0x89 }

theorem test_legal_maps : OpcodeMap.ls8.legal = true ∧ otherMap.legal = true := by decide

-- R79: the bytes are distinct.
theorem test_refuses_equal_bytes :
    let m := { OpcodeMap.ls8 with add := 0xA1 }
    m.distinctBytes = false ∧ m.countsAgree = true ∧ m.legal = false := by decide

-- R79: bits 7:6 of LDI's byte must say two operand bytes.
theorem test_refuses_wrong_count :
    let m := { OpcodeMap.ls8 with ldi := 0x42 }
    m.countsAgree = false ∧ m.distinctBytes = true ∧ m.legal = false := by decide

-- R70, R74: no instruction has three operand bytes, not even one whose count R79 leaves open.
theorem test_refuses_count_three :
    let m := { OpcodeMap.ls8 with int := 0xD2 }
    m.countsShort = false ∧ m.countsAgree = true ∧ m.legal = false := by decide

-- R80: INC and DEC are ill-formed unless ADMIT_INC_DEC is true.
theorem test_refuses_inc_dec :
    ¬ (Instr.inc 0).WellFormed .default ∧ ¬ (Instr.dec 0).WellFormed .default ∧
      (Instr.inc 0).WellFormed otherConfig ∧ (Instr.dec 0xFF).WellFormed otherConfig := by decide

-- R11, R263: 8 is no register index; an immediate and an uninterpreted byte are not checked.
theorem test_refuses_bad_indices :
    ¬ (Instr.ld 8 0).IndicesValid .default ∧ ¬ (Instr.ld 0 8).IndicesValid .default ∧ (Instr.ld 7 7).IndicesValid .default ∧
      (Instr.ldi 7 0xFF).IndicesValid .default ∧ (Instr.int 0xFF).IndicesValid .default ∧
      ¬ (Instr.not 0 8).IndicesValid .default ∧ (Instr.not 0 8).IndicesValid otherConfig := by decide

/-! ## Decoding: one word of each row, its bits written out from R78's table -/

theorem test_decode_hlt : decodeBytes .default [0b00000001, 0b00000101, 0b11000011] = .ok .hlt := by decide

theorem test_decode_ret : decodeBytes .default [0b00010001, 0b00000101, 0b11000011] = .ok .ret := by decide

theorem test_decode_iret : decodeBytes .default [0b00010011, 0b00000101, 0b11000011] = .ok .iret := by decide

theorem test_decode_push : decodeBytes .default [0b01000101, 0b00000101, 0b11000011] = .ok (.push 0x05) := by decide

theorem test_decode_pop : decodeBytes .default [0b01000110, 0b00000101, 0b11000011] = .ok (.pop 0x05) := by decide

theorem test_decode_prn : decodeBytes .default [0b01000111, 0b00000101, 0b11000011] = .ok (.prn 0x05) := by decide

theorem test_decode_pra : decodeBytes .default [0b01001000, 0b00000101, 0b11000011] = .ok (.pra 0x05) := by decide

theorem test_decode_call : decodeBytes .default [0b01010000, 0b00000101, 0b11000011] = .ok (.call 0x05) := by decide

theorem test_decode_int : decodeBytes .default [0b01010010, 0b00000101, 0b11000011] = .ok (.int 0x05) := by decide

theorem test_decode_jmp : decodeBytes .default [0b01010100, 0b00000101, 0b11000011] = .ok (.jmp 0x05) := by decide

theorem test_decode_jeq : decodeBytes .default [0b01010101, 0b00000101, 0b11000011] = .ok (.jeq 0x05) := by decide

theorem test_decode_jne : decodeBytes .default [0b01010110, 0b00000101, 0b11000011] = .ok (.jne 0x05) := by decide

theorem test_decode_jgt : decodeBytes .default [0b01010111, 0b00000101, 0b11000011] = .ok (.jgt 0x05) := by decide

theorem test_decode_jlt : decodeBytes .default [0b01011000, 0b00000101, 0b11000011] = .ok (.jlt 0x05) := by decide

theorem test_decode_jle : decodeBytes .default [0b01011001, 0b00000101, 0b11000011] = .ok (.jle 0x05) := by decide

theorem test_decode_jge : decodeBytes .default [0b01011010, 0b00000101, 0b11000011] = .ok (.jge 0x05) := by decide

theorem test_decode_inc : decodeBytes Config.wholeTable [0b01100101, 0b00000101, 0b11000011] = .ok (.inc 0x05) := by decide

theorem test_decode_dec : decodeBytes Config.wholeTable [0b01100110, 0b00000101, 0b11000011] = .ok (.dec 0x05) := by decide

theorem test_decode_not : decodeBytes .default [0b01101001, 0b00000101, 0b11000011] = .ok (.not 0x05 0xC3) := by decide

theorem test_decode_ldi : decodeBytes .default [0b10000010, 0b00000101, 0b11000011] = .ok (.ldi 0x05 0xC3) := by decide

theorem test_decode_ld : decodeBytes .default [0b10000011, 0b00000101, 0b11000011] = .ok (.ld 0x05 0xC3) := by decide

theorem test_decode_st : decodeBytes .default [0b10000100, 0b00000101, 0b11000011] = .ok (.st 0x05 0xC3) := by decide

theorem test_decode_add : decodeBytes .default [0b10100000, 0b00000101, 0b11000011] = .ok (.add 0x05 0xC3) := by decide

theorem test_decode_sub : decodeBytes .default [0b10100001, 0b00000101, 0b11000011] = .ok (.sub 0x05 0xC3) := by decide

theorem test_decode_mul : decodeBytes .default [0b10100010, 0b00000101, 0b11000011] = .ok (.mul 0x05 0xC3) := by decide

theorem test_decode_mod : decodeBytes .default [0b10100100, 0b00000101, 0b11000011] = .ok (.mod 0x05 0xC3) := by decide

theorem test_decode_cmp : decodeBytes .default [0b10100111, 0b00000101, 0b11000011] = .ok (.cmp 0x05 0xC3) := by decide

theorem test_decode_and : decodeBytes .default [0b10101000, 0b00000101, 0b11000011] = .ok (.and 0x05 0xC3) := by decide

theorem test_decode_or : decodeBytes .default [0b10101010, 0b00000101, 0b11000011] = .ok (.or 0x05 0xC3) := by decide

theorem test_decode_xor : decodeBytes .default [0b10101011, 0b00000101, 0b11000011] = .ok (.xor 0x05 0xC3) := by decide

theorem test_decode_shl : decodeBytes .default [0b10101100, 0b00000101, 0b11000011] = .ok (.shl 0x05 0xC3) := by decide

theorem test_decode_shr : decodeBytes .default [0b10101101, 0b00000101, 0b11000011] = .ok (.shr 0x05 0xC3) := by decide

-- R81: 0x00, bytes between the rows and a byte with operand count 3 do not decode.
theorem test_decode_rejects :
    decodeBytes .default [0x00] = .error (.unknownOpcode 0x00) ∧ decodeBytes .default [0xC0] = .error (.unknownOpcode 0xC0) ∧
      decodeBytes .default [0x65, 0] = .error (.unknownOpcode 0x65) := by decide

-- opcode_table.json: HLT matches 0x01, PUSH 0x4500, INC 0x6500, NOT 0x6900, ADD 0xA00000, SHR 0xAD0000.
theorem test_table_words :
    decodeTableWord 8 0x01 = some .hlt ∧ decodeTableWord 16 0x4503 = some (.push 3) ∧
      decodeTableWord 16 0x6500 = some (.inc 0) ∧ decodeTableWord 16 0x6907 = some (.not 7 0) ∧
      decodeTableWord 24 0xA00102 = some (.add 1 2) ∧ decodeTableWord 24 0xAD0000 = some (.shr 0 0) := by decide

-- R71: NOT's two bytes; R76: the operand order of ST.
theorem test_encode :
    encode .default (.not 0 1) = [0x69, 0x00] ∧ encode .default (.st 4 0) = [0x84, 0x04, 0x00] ∧
      encode .default .hlt = [0x01] := by decide

-- R179 with NOT_SOURCE = operand_a at an alternative map whose NOT has two operand bytes: the advance follows the byte.
theorem test_other_map_lengths :
    let cfg := { Config.default with opcodes := otherMap }
    cfg.lenOf .not = 3 ∧ cfg.lenOf .iret = 2 ∧ cfg.lenOf .ldi = 3 := by decide

/-! ## Single steps -/

-- V-L2-D1.
theorem test_ldi :
    answers (step (coreAt (regs 0 0 0 0 0xF4) 0 0 [0x82, 0x05, 0xFF]))
      (fun t => t.reg 5 == 0xFF && t.pc == 3) = true := by decide

-- V-L2-D3.
theorem test_ldi_bad_index :
    answers (step (coreAt (regs 0 0 0 0 0xF4) 0 0 [0x82, 0x08, 0x01]))
      (fun t => faultedWith (coreAt (regs 0 0 0 0 0xF4) 0 0 [0x82, 0x08, 0x01]) (.outOfRangeReg 8) t && t.ports.faultInfo == 8) = true := by decide

-- V-L2-D4.
theorem test_ld :
    answers (step (poke (coreAt (regs 0 0x80 0 0 0xF4) 0 0 [0x83, 0x00, 0x01]) 0x80 42))
      (fun t => t.reg 0 == 42 && t.pc == 3) = true := by decide

-- V-L2-D6: operand_a is reported.
theorem test_ld_both_bad :
    answers (step (coreAt (regs 0 0 0 0 0xF4) 0 0 [0x83, 0x09, 0x0A]))
      (fun t => t.stop == .fault (.outOfRangeReg 9) && t.pc == 0) = true := by decide

-- V-L2-D8, with R0 as the value and R1 as the address.
theorem test_st :
    answers (step (coreAt (regs 3 0x80 0 0 0xF4) 0 0 [0x84, 0x01, 0x00]))
      (fun t => t.mem.read 0x80 == 3 && t.pc == 3) = true := by decide

-- V-L2-D9.
theorem test_st_same_register :
    answers (step (coreAt (regs 0x90 0 0 0 0xF4) 0 0 [0x84, 0x00, 0x00]))
      (fun t => t.mem.read 0x90 == 0x90) = true := by decide

-- V-L2-O2.
theorem test_prn :
    answers (step (coreAt (regs 0 0 0 0xFF 0xF4) 0 9 [0x47, 0x03]))
      (fun t => t.out == [⟨.dec, 255⟩] && t.pc == 11) = true := by decide

-- V-L2-O5.
theorem test_prn_bad_index :
    answers (step (coreAt (regs 0 0 0 0 0xF4) 0 0 [0x47, 0x08]))
      (fun t => t.out == [] && t.stop == .fault (.outOfRangeReg 8)) = true := by decide

-- V-L2-O3.
theorem test_pra :
    answers (step (coreAt (regs 0 0 0x41 0 0xF4) 0 0 [0x48, 0x02]))
      (fun t => t.out == [⟨.chr, 0x41⟩] && t.pc == 2) = true := by decide

-- V-L2-S1.
theorem test_push :
    answers (step (coreAt (regs 0 11 0 0 0xF4) 0 0 [0x45, 0x01]))
      (fun t => t.sp == 0xF3 && t.mem.read 0xF3 == 11 && t.pc == 2) = true := by decide

-- V-L2-S3: PUSH R7 stores the new SP.
theorem test_push_sp :
    answers (step (coreAt (regs 0 0 0 0 0xF4) 0 0 [0x45, 0x07]))
      (fun t => t.sp == 0xF3 && t.mem.read 0xF3 == 0xF3) = true := by decide

-- V-L2-S2.
theorem test_pop :
    answers (step (poke (coreAt (regs 0 0 0 0 0xF2) 0 0 [0x46, 0x01]) 0xF2 11))
      (fun t => t.reg 1 == 11 && t.sp == 0xF3) = true := by decide

-- V-L2-S4.
theorem test_pop_sp :
    answers (step (poke (coreAt (regs 0 0 0 0 0xF3) 0 0 [0x46, 0x07]) 0xF3 0x10))
      (fun t => t.sp == 0x11) = true := by decide

-- V-L2-S11.
theorem test_call_at_253 :
    answers (step (coreAt (regs 0 0 0 0 0xF4) 0 253 [0x50, 0x01, 0x00]))
      (fun t => t.mem.read 0xF3 == 255 && t.pc == 0 && t.sp == 0xF3) = true := by decide

-- V-L2-S10: CALL R7 jumps to the new SP.
theorem test_call_sp :
    answers (step (coreAt (regs 0 0 0 0 0xF4) 0 6 [0x50, 0x07]))
      (fun t => t.mem.read 0xF3 == 8 && t.pc == 0xF3) = true := by decide

-- V-L2-S12.
theorem test_ret :
    answers (step (poke (coreAt (regs 0 0 0 0 0xF3) 0 0 [0x11]) 0xF3 8))
      (fun t => t.pc == 8 && t.sp == 0xF4) = true := by decide

-- V-L2-J8.
theorem test_jmp :
    answers (step (coreAt (regs 0 0 0 20 0xF4) 0 20 [0x54, 0x03]))
      (fun t => t.pc == 20) = true := by decide

-- V-L2-J6.
theorem test_jeq_taken_bad_index :
    answers (step (coreAt (regs 0 0 0 12 0xF4) 0b001 0 [0x55, 0xFF]))
      (fun t => t.stop == .fault (.outOfRangeReg 255) && t.pc == 0) = true := by decide

-- V-L2-J5.
theorem test_jeq_not_taken_bad_index :
    answers (step (coreAt (regs 0 0 0 12 0xF4) 0b100 0 [0x55, 0xFF]))
      (fun t => t.stop == .none && t.pc == 2) = true := by decide

-- V-L2-J7.
theorem test_jne :
    answers (step (coreAt (regs 0 0 0 12 0xF4) 0 0 [0x56, 0x03]))
      (fun t => t.pc == 12) = true := by decide

-- V-L2-J2.
theorem test_jne_not_taken :
    answers (step (coreAt (regs 0 0 0 12 0xF4) 0b001 3 [0x56, 0x03]))
      (fun t => t.pc == 5) = true := by decide

-- V-L2-J9.
theorem test_jgt :
    answers (step (coreAt (regs 0 0 0 12 0xF4) 0b010 0 [0x57, 0x03]))
      (fun t => t.pc == 12) = true := by decide

-- V-L2-J13.
theorem test_jgt_advance :
    answers (step (coreWith otherConfig (regs 0 0 0 12 0xF4) 0b010 0 [0x57, 0x09]))
      (fun t => t.stop == .none && t.pc == 2) = true := by decide

-- V-L2-J10.
theorem test_jlt :
    answers (step (coreAt (regs 0 0 0 12 0xF4) 0b100 0 [0x58, 0x03]))
      (fun t => t.pc == 12) = true := by decide

-- V-L2-J10.
theorem test_jlt_advance :
    answers (step (coreWith otherConfig (regs 0 0 0 12 0xF4) 0b100 0 [0x58, 0x03]))
      (fun t => t.pc == 2) = true := by decide

-- V-L2-J11.
theorem test_jle :
    answers (step (coreAt (regs 0 0 0 12 0xF4) 0b001 0 [0x59, 0x03]))
      (fun t => t.pc == 12) = true := by decide

-- V-L2-J11.
theorem test_jle_not_taken :
    answers (step (coreAt (regs 0 0 0 12 0xF4) 0b010 0 [0x59, 0x03]))
      (fun t => t.pc == 2) = true := by decide

-- V-L2-J12.
theorem test_jge :
    answers (step (coreAt (regs 0 0 0 12 0xF4) 0b010 0 [0x5A, 0x03]))
      (fun t => t.pc == 12) = true := by decide

-- V-L2-J12.
theorem test_jge_not_taken :
    answers (step (coreAt (regs 0 0 0 12 0xF4) 0b100 0 [0x5A, 0x03]))
      (fun t => t.pc == 2) = true := by decide

-- V-L2-A1, V-L2-A18.
theorem test_add :
    answers (step (coreAt (regs 200 100 0 0 0xF4) 0b100 0 [0xA0, 0x00, 0x01]))
      (fun t => t.reg 0 == 44 && t.reg 1 == 100 && t.fl == 0b100 && t.pc == 3) = true := by decide

-- V-L2-A2.
theorem test_add_same_register :
    answers (step (coreAt (regs 0 0 0x81 0 0xF4) 0 0 [0xA0, 0x02, 0x02]))
      (fun t => t.reg 2 == 0x02) = true := by decide

-- V-L2-A3.
theorem test_sub :
    answers (step (coreAt (regs 3 5 0 0 0xF4) 0b100 0 [0xA1, 0x00, 0x01]))
      (fun t => t.reg 0 == 254 && t.reg 1 == 5 && t.fl == 0b100 && t.pc == 3) = true := by decide

-- V-L2-A3.
theorem test_sub_zero :
    answers (step (coreAt (regs 0 1 0 0 0xF4) 0b100 0 [0xA1, 0x00, 0x01]))
      (fun t => t.reg 0 == 255 && t.reg 1 == 1 && t.fl == 0b100 && t.pc == 3) = true := by decide

-- V-L2-A4.
theorem test_mul :
    answers (step (coreAt (regs 255 255 0 0 0xF4) 0b100 0 [0xA2, 0x00, 0x01]))
      (fun t => t.reg 0 == 1 && t.reg 1 == 255 && t.fl == 0b100 && t.pc == 3) = true := by decide

-- V-L2-A4.
theorem test_mul_wraps :
    answers (step (coreAt (regs 16 16 0 0 0xF4) 0b100 0 [0xA2, 0x00, 0x01]))
      (fun t => t.reg 0 == 0 && t.reg 1 == 16 && t.fl == 0b100 && t.pc == 3) = true := by decide

-- V-L2-A6.
theorem test_inc :
    answers (step (coreWith otherConfig (regs 255 0 0 0 0xF4) 0 0 [0x65, 0x00]))
      (fun t => t.reg 0 == 0 && t.pc == 2) = true := by decide

-- V-L2-A5.
theorem test_inc_not_admitted :
    answers (step (coreAt (regs 0 0 0 0 0xF4) 0 0 [0x65, 0x00]))
      (fun t => t.stop == .fault (.unknownOpcode 0x65) && t.pc == 0) = true := by decide

-- V-L2-A6.
theorem test_dec :
    answers (step (coreWith otherConfig (regs 0 0 0 0 0xF4) 0 0 [0x66, 0x00]))
      (fun t => t.reg 0 == 255) = true := by decide

-- V-L2-A5.
theorem test_dec_not_admitted :
    answers (step (coreAt (regs 0 0 0 0 0xF4) 0 0 [0x66, 0x00]))
      (fun t => t.stop == .fault (.unknownOpcode 0x66) && t.pc == 0) = true := by decide

-- V-L2-A7.
theorem test_and :
    answers (step (coreAt (regs 0xCC 0xAA 0 0 0xF4) 0b100 0 [0xA8, 0x00, 0x01]))
      (fun t => t.reg 0 == 0x88 && t.reg 1 == 0xAA && t.fl == 0b100 && t.pc == 3) = true := by decide

-- V-L2-A7.
theorem test_or :
    answers (step (coreAt (regs 0xCC 0xAA 0 0 0xF4) 0b100 0 [0xAA, 0x00, 0x01]))
      (fun t => t.reg 0 == 0xEE && t.reg 1 == 0xAA && t.fl == 0b100 && t.pc == 3) = true := by decide

-- V-L2-A7.
theorem test_xor :
    answers (step (coreAt (regs 0xCC 0xAA 0 0 0xF4) 0b100 0 [0xAB, 0x00, 0x01]))
      (fun t => t.reg 0 == 0x66 && t.reg 1 == 0xAA && t.fl == 0b100 && t.pc == 3) = true := by decide

-- V-L2-A8: the source byte stays the next opcode.
theorem test_not :
    answers (step (coreAt (regs 0 0x0F 0 0 0xF4) 0 0 [0x69, 0x00, 0x01]))
      (fun t => t.reg 0 == 0xF0 && t.pc == 2) = true := by decide

-- V-L2-A10.
theorem test_not_operand_a :
    answers (step (coreWith otherConfig (regs 0x0F 0 0 0 0xF4) 0 0 [0x69, 0x00, 0x82]))
      (fun t => t.reg 0 == 0xF0 && t.pc == 2) = true := by decide

-- V-L2-A11.
theorem test_shl :
    answers (step (coreAt (regs 0x81 1 0 0 0xF4) 0b100 0 [0xAC, 0x00, 0x01]))
      (fun t => t.reg 0 == 0x02 && t.reg 1 == 1 && t.fl == 0b100 && t.pc == 3) = true := by decide

-- V-L2-A11.
theorem test_shl_eight :
    answers (step (coreAt (regs 1 8 0 0 0xF4) 0b100 0 [0xAC, 0x00, 0x01]))
      (fun t => t.reg 0 == 0 && t.reg 1 == 8 && t.fl == 0b100 && t.pc == 3) = true := by decide

-- V-L2-A12.
theorem test_shr :
    answers (step (coreAt (regs 0x90 4 0 0 0xF4) 0b100 0 [0xAD, 0x00, 0x01]))
      (fun t => t.reg 0 == 0x09 && t.reg 1 == 4 && t.fl == 0b100 && t.pc == 3) = true := by decide

-- V-L2-A12.
theorem test_shr_all :
    answers (step (coreAt (regs 0xFF 255 0 0 0xF4) 0b100 0 [0xAD, 0x00, 0x01]))
      (fun t => t.reg 0 == 0 && t.reg 1 == 255 && t.fl == 0b100 && t.pc == 3) = true := by decide

-- V-L2-A13.
theorem test_mod :
    answers (step (coreAt (regs 200 7 0 0 0xF4) 0b100 0 [0xA4, 0x00, 0x01]))
      (fun t => t.reg 0 == 4 && t.reg 1 == 7 && t.fl == 0b100 && t.pc == 3) = true := by decide

-- V-L1-6.
theorem test_mod_zero :
    answers (step (coreAt (regs 6 0 0 0 0xF4) 0 0 [0xA4, 0x00, 0x01]))
      (fun t => t.run == .halted && t.stop == .halt .modZero && t.reg 0 == 6 && t.pc == 3) = true := by decide

-- V-L2-A14, with R1.
theorem test_cmp_less :
    answers (step (coreAt (regs 1 3 0 0 0xF4) 0b010 0 [0xA7, 0x00, 0x01]))
      (fun t => t.fl == 0b100 && t.pc == 3) = true := by decide

-- V-L2-A15.
theorem test_cmp_greater_unsigned :
    answers (step (coreAt (regs 0xFF 1 0 0 0xF4) 0 0 [0xA7, 0x00, 0x01]))
      (fun t => t.fl == 0b010) = true := by decide

-- V-L2-Y1.
theorem test_hlt :
    answers (step (coreAt (regs 0 0 0 0 0xF4) 0 11 [0x01]))
      (fun t => t.run == .halted && t.stop == .halt .hlt && t.pc == 12) = true := by decide

-- V-L2-Y2.
theorem test_int :
    answers (step (coreAt (regs 0 0 0 0 0xF4) 0 20 [0x52, 0xFF]))
      (fun t => t == State.advance (coreAt (regs 0 0 0 0 0xF4) 0 20 [0x52, 0xFF]) .int && t.pc == 22) = true := by decide

-- V-L2-Y3.
theorem test_iret :
    answers (step (coreAt (regs 0 0 0 0 0xF3) 0 20 [0x13]))
      (fun t => t.pc == 21 && t.sp == 0xF3 && t.ie == false) = true := by decide

/-! ## Fetch, decode and faults -/

-- V-L2-F1: a HLT at 254 does not halt.
theorem test_fetch_254 :
    answers (step (coreAt (regs 0 0 0 0 0xF4) 0 254 [0x01]))
      (fun t => faultedWith (coreAt (regs 0 0 0 0 0xF4) 0 254 [0x01]) (.outOfRangeMem 256) t && t.ports.faultInfo == 256) = true := by decide

-- V-L2-F3.
theorem test_fetch_253 :
    answers (step (coreAt (regs 0 0 0 0 0xF4) 0 253 [0x82, 0x00, 0x05]))
      (fun t => t.reg 0 == 5 && t.pc == 256) = true := by decide

-- V-L2-F3.
theorem test_fetch_256 :
    answers (step (coreAt (regs 0 0 0 0 0xF4) 0 256 []))
      (fun t => t.stop == .fault (.outOfRangeMem 256) && t.pc == 256) = true := by decide

-- V-L2-F4.
theorem test_unknown_opcode :
    answers (step (coreAt (regs 0 0 0 0 0xF4) 0 0 [0xA3, 0x00, 0x01]))
      (fun t => t.stop == .fault (.unknownOpcode 0xA3) && t.ports.stopCause == 6 && t.ports.faultInfo == 0xA3) = true := by decide

-- V-L2-F5.
theorem test_fetch_before_decode :
    answers (step (coreAt (regs 0 0 0 0 0xF4) 0 254 [0x00]))
      (fun t => t.stop == .fault (.outOfRangeMem 256)) = true := by decide

-- V-L2-F6: a start in Faulted has no effect.
theorem test_start_when_faulted :
    let s := { coreAt (regs 0 0 0 0 0xF4) 0 0 [] with run := .faulted, stop := .fault (.unknownOpcode 0) }
    answers (hostStart s) (fun t => t == s) = true := by decide

/-! ## The host: reset, load, start, and the two text formats -/

-- V-L1-11.
theorem test_reset :
    State.reset.reg 7 = 0xF4 ∧ State.reset.pc = 0 ∧ State.reset.fl = 0 ∧ State.reset.run = .idle := by decide

-- withFetchWord: the word runs as the first instruction after reset (log entry 5).
theorem test_first_instruction :
    answers (step (State.reset.withFetchWord 24 0x820508)) (fun t => t.reg 5 == 8 && t.pc == 3) = true ∧
      answers (step (State.reset.withFetchWord 16 0x6501)) (fun t => t.reg 1 == 1 && t.pc == 2) = true := by decide

/-- V-L1-12's text: a line with an inline comment, a comment line and an empty line among the bytes. -/
def imageExample : List Char :=
  ['1', '0', '0', '0', '0', '0', '1', '0', '\n',
   '0', '0', '0', '0', '0', '0', '0', '0', ' ', '#', ' ', 'R', '0', '\n',
   '0', '0', '0', '0', '1', '0', '0', '0', '\n', '#', ' ', 'c', '\n', '\n',
   '0', '0', '0', '0', '0', '0', '0', '1', '\n']

-- V-L1-12.
theorem test_image : parseImage imageExample = .ok [0x82, 0x00, 0x08, 0x01] := by decide

-- V-L1-12: a line 1000001x rejects the whole load.
theorem test_bad_image :
    rejectedWith (hostLoadFile (some (imageExample ++ ['1', '0', '0', '0', '0', '0', '1', 'x'])) State.reset)
      .malformedInstruction = true := by decide

-- R254, R256: boot leaves the core Running at 0 with the image's bytes, every other cell 0.
theorem test_boot :
    answers (hostBoot (some imageExample) State.reset)
      (fun t => t.run == .running && t.pc == 0 && t.mem == [(0, 0x82), (2, 0x08), (3, 0x01)]) = true := by decide

-- R85: the first lines of P1's assembly column give P1's bytes.
theorem test_assemble :
    assemble .default
      (['L', 'D', 'I', ' ', 'R', '1', ',', ' ', '9', '\n', 'A', 'D', 'D', ' ', 'R', '0', ',', ' ', 'R', '1', ' ', ';', 'x', '\n'] ++
       ['L', 'D', 'I', ' ', 'R', '4', ',', '0', 'x', '8', '0', '\n', 'H', 'L', 'T']) =
      some [0x82, 0x01, 0x09, 0xA0, 0x00, 0x01, 0x82, 0x04, 0x80, 0x01] := by decide

-- R61: PUSH makes three fetch reads and then one write.
theorem test_bus :
    busAccesses (coreAt (regs 0 11 0 0 0xF4) 0 0 [0x45, 0x01]) =
      [.read 0 0x45, .read 1 0x01, .read 2 0x00, .write 0xF3 11] := by decide

-- R66, R38: a read that waits one cycle.
theorem test_bus_cycles :
    (Access.read 0x10 0x2A).cycles 1 =
      [⟨0x10, true, false, none, false, none⟩, ⟨0x10, true, false, none, true, some 0x2A⟩] := by decide

-- R122: rendering is the host's, over the event sequence.
theorem test_render :
    renderOutput (fun _ => ['d']) (fun _ => ['c']) [⟨.dec, 17⟩, ⟨.chr, 65⟩] = ['d', 'c'] := by decide

/-! ## Witnesses: states and operands that meet the obligations' hypotheses -/

/-- A Running core at pc with bytes there, R0 = 6, R1 = 0x80, R2 = 0, R3 = 0xFE, SP = 0xF4. -/
def sample (pc : Nat) (bytes : List Byte) : State := coreAt (regs 6 0x80 0 0xFE 0xF4) 0 pc bytes

theorem witness_DecodeInvertsEncode :
    Config.default.opcodes.legal = true ∧ (Instr.add 0xFF 0x00).WellFormed .default ∧
      Config.default.opcodes = .ls8 ∧ (Instr.add 0xFF 0x00).mnemonic ≠ .not ∧ (Instr.not 0 1).WellFormed .default ∧
      otherMap.legal = true ∧ Config.wholeTable.opcodes.legal = true ∧ (Instr.inc 0xFF).WellFormed Config.wholeTable := by
  decide

theorem witness_DecodesExactlyTheAdmittedSet :
    Config.default.opcodes.legal = true ∧ decode .default 0x01 0xFF 0xFF = .ok .hlt ∧
      Config.default.admits .shr = true ∧ Config.default.opcodes.byteOf .shr = 0xAD ∧
      (∀ k ∈ Mnemonic.all, Config.default.admits k = true → Config.default.opcodes.byteOf k ≠ 0x65) ∧
      (∀ k ∈ Mnemonic.all, Config.default.admits k = true → Config.default.opcodes.byteOf k ≠ 0x00) := by decide

theorem witness_AdmittedSetSize : Config.default.admitIncDec = false ∧ otherConfig.admitIncDec = true ∧
    Config.default.opcodes.legal = true ∧ otherConfig.opcodes.legal = true := by decide

theorem witness_LengthsFollowTheFormats :
    otherMap.legal = true ∧ Mnemonic.ldi.countIsFixed = true ∧ Mnemonic.iret.countIsFixed = false := by decide

theorem witness_StartRunsOnlyFromIdle :
    State.reset.run = .idle ∧ (sample 0 []).run = .running ∧
      answers (hostReset State.reset) (fun t => answers (hostStart t) fun u => u.run == .running) = true ∧
      { sample 0 [] with run := .halted, stop := .halt .hlt }.run = .halted ∧
      { sample 0 [] with run := .faulted, stop := .fault (.unknownOpcode 0) }.run = .faulted := by decide

theorem witness_LoadPlacesTheImage :
    State.reset.run = .idle ∧ ([] : List Byte).length ≤ 256 ∧ (List.replicate 256 (0x2A : Byte)).length ≤ 256 :=
  ⟨rfl, Nat.zero_le _, Nat.le_of_eq List.length_replicate⟩

theorem witness_LoadErrorsKeepTheCoreIdle :
    State.reset.run = .idle ∧ parseImage ['2'] = .error .malformedInstruction := by decide

set_option maxRecDepth 8000 in
theorem witness_imageTooLong :
    (match parseImage (List.replicate 257 ['1', '\n']).flatten with
      | .ok image => image.length == 257
      | .error _ => false) = true := by decide

theorem witness_ImageTextIsReadBack :
    ∀ l ∈ [((0x82 : Byte), [' ', 'L', 'D', 'I']), ((0x00 : Byte), [])], '\n' ∉ l.2 := by decide

/-- A text whose middle line is bad. -/
def badLines (content comment : List Char) : List (List Char) := [['1'], content ++ comment, ['0', '#', 'x']]

-- A line with a character that is no base-2 digit, V-L1-12's.
theorem witness_ImageText_bad_character :
    let content := ['1', '0', '0', '0', '0', '0', '1', 'x']
    (∀ l ∈ badLines content [], '\n' ∉ l) ∧ content ++ [] ∈ badLines content [] ∧ '#' ∉ content ∧
      (∃ c ∈ content, c ∉ ['0', '1', ' ', '\t', '\r']) := by simp [badLines]

-- A line with the digits of 256, and a comment.
theorem witness_ImageText_above_255 :
    let content := ['1', '0', '0', '0', '0', '0', '0', '0', '0']
    (∀ l ∈ badLines content ['#', 'c'], '\n' ∉ l) ∧ content ++ ['#', 'c'] ∈ badLines content ['#', 'c'] ∧ '#' ∉ content ∧
      (∀ c ∈ ['#', 'c'].head?, c = '#') ∧ (∀ c ∈ content, c = '0' ∨ c = '1') ∧
      content.foldl (fun n c => 2 * n + if c = '1' then 1 else 0) 0 = 256 := by simp [badLines]

theorem witness_HostViolationsAreRefused :
    (sample 0 []).run = .running ∧ (sample 0 []).run ≠ .idle ∧ State.reset.run ≠ .running ∧
      { sample 0 [] with run := .halted, stop := .halt .hlt }.run ≠ .idle := by decide

theorem witness_StepRunsTheDecodedInstruction :
    let s := sample 253 [0x82, 0x00, 0x05]
    s.run = .running ∧ s.pc.toNat = 253 ∧ decode s.cfg (s.byteAt 0) (s.byteAt 1) (s.byteAt 2) = .ok (.ldi 0 5) := by decide

theorem witness_FetchPastTheEndFaults :
    (sample 254 []).run = .running ∧ 256 = (sample 254 []).pc.toNat + 2 ∧ (sample 254 []).pc.toNat + 1 < 256 ∧
      256 = (sample 255 []).pc.toNat + 1 ∧ 256 = (sample 256 []).pc.toNat ∧ 511 = (sample 511 []).pc.toNat ∧
      (sample 254 []).stop = .none ∧
      answers (step (sample 254 [])) (fun t => t.stop == .fault (.outOfRangeMem 256)) = true := by decide

theorem witness_UnadmittedOpcodeFaults :
    let s := sample 253 [0x00]
    s.run = .running ∧ s.pc.toNat ≤ 253 ∧ s.cfg.opcodes.legal = true ∧
      (∀ k ∈ Mnemonic.all, s.cfg.admits k = true → s.cfg.opcodes.byteOf k ≠ s.mem.read s.pc.toNat) ∧ s.stop = .none ∧
      answers (step s) (fun t => t.stop == .fault (.unknownOpcode 0)) = true := by decide

theorem witness_BadRegisterOperandsFault :
    let s := sample 0 []
    let stopped := { s with run := .faulted, stop := .fault (.outOfRangeReg 9) }
    registerA (.add 8 8) s = some 8 ∧ registerB (.add 7 8) s = some 8 ∧ registerA (.add 7 8) s = some 7 ∧
      registerA (.jne 0xFF) s = some 0xFF ∧ registerA (.jeq 0xFF) s = none ∧ registerB (.ldi 0 0xFF) s = none ∧
      registerB (.not 0 8) s = some 8 ∧ registerA .iret stopped = none ∧ registerB .iret stopped = none ∧
      answers (exec .iret stopped) (fun t => t.stop == .fault (.outOfRangeReg 9)) = true := by decide

theorem witness_EveryStepAnswersANextState :
    State.reset.run ≠ .running ∧ (sample 0 []).run = .running := by decide

theorem witness_FaultsArePrecise :
    (sample 0 []).run = .running ∧
      answers (step (sample 0 [])) (fun t => t.run == .faulted) = true ∧
      answers (step (sample 0 [0x45, 0x08])) (fun t => t.run == .faulted) = true ∧
      answers (step (sample 254 [])) (fun t => t.run == .faulted) = true := by decide

theorem witness_OnlyHltAndZeroModHalt :
    (sample 0 [0x01]).run = .running ∧ (sample 0 [0x01]).cfg.opcodes.legal = true ∧
      answers (step (sample 0 [0x01])) (fun t => t.run == .halted) = true ∧
      answers (step (sample 253 [0xA4, 0x00, 0x02])) (fun t => t.run == .halted) = true := by decide

theorem witness_OnlyResetLeavesAStop :
    let s := { sample 0 [] with run := .halted, stop := .halt .hlt }
    s.run ≠ .running ∧ s.run = .halted ∧ answers (hostStep .reset s) (fun t => t.run == .idle) = true ∧
      answers (hostStep .start s) (fun t => t == s) = true := by decide

theorem witness_StepKeepsTheInvariant :
    (sample 253 [0x82, 0x00, 0x05]).Inv ∧
      answers (step (sample 253 [0x82, 0x00, 0x05])) (fun t => t.pc == 256) = true ∧
      answers (step (sample 0 [0xA7, 0x00, 0x01])) (fun t => t.fl == 0b100) = true := by decide

theorem witness_ResetMeetsTheInvariant : { Config.default with opcodes := otherMap }.opcodes.legal = true := by decide

theorem witness_HostActionsKeepTheInvariant :
    State.reset.Inv ∧ answers (hostStep (.load [0x01, 0x00]) State.reset) (fun t => t.mem == [(0, 0x01)]) = true ∧
      answers (hostStep (.write 0xFF 0x01) State.reset) (fun t => t.mem == [(255, 0x01)]) = true ∧
      answers (hostStep .start State.reset) (fun t => t.run == .running) = true ∧
      answers (hostStep .reset State.reset) (fun t => t.run == .idle) = true := by decide

theorem witness_EveryRunKeepsTheInvariant : (sample 0 [0x82, 0x00, 0x08, 0x01]).Inv := by decide

theorem witness_step_answers :
    ∃ t, step (sample 0 [0x47, 0x00]) = .next t ∧ (t.out == [⟨.dec, 6⟩]) = true := of_answers (by decide)

theorem witness_OnlyPrintsEmit :
    answers (step (sample 0 [0x47, 0x00])) (fun t => decide (t.out ≠ [])) = true ∧
      answers (step (sample 0 [0x48, 0x07])) (fun t => t.out == [⟨.chr, 0xF4⟩]) = true := by decide

theorem witness_OnlyCmpWritesFlags :
    answers (step (sample 0 [0xA7, 0x00, 0x01])) (fun t => decide (t.fl ≠ (sample 0 []).fl)) = true := by decide

theorem witness_BusAccessesFollowTheTable :
    (sample 0 []).run = .running ∧ fetchInstr (sample 0 [0x83, 0x00, 0x07]) = .ok (.ld 0 7) ∧
      fetchInstr (sample 253 [0x84, 0x07, 0x00]) = .ok (.st 7 0) ∧ fetchInstr (sample 0 [0x45, 0x07]) = .ok (.push 7) ∧
      fetchInstr (sample 0 [0x46, 0x00]) = .ok (.pop 0) ∧ fetchInstr (sample 0 [0x50, 0x01]) = .ok (.call 1) ∧
      fetchInstr (sample 0 [0x11]) = .ok .ret ∧ fetchInstr (sample 0 [0x01]) = .ok .hlt ∧
      Names 0 0 ∧ Names 7 7 ∧ Names 1 1 := by decide

-- V-L2-D10.
theorem witness_StoredOpcodeRunsNext :
    let s := coreAt (regs 0x01 253 0 0 0xF4) 0 250 [0x84, 0x01, 0x00, 0x47, 0x00]
    s.run = .running ∧ s.cfg.opcodes.legal = true ∧ s.pc.toNat + 3 ≤ 253 ∧ fetchInstr s = .ok (.st 1 0) ∧ Names 1 1 ∧
      Names 0 0 ∧ (s.reg 1).toNat = s.pc.toNat + 3 ∧ decode s.cfg (s.reg 0) (s.byteAt 4) (s.byteAt 5) = .ok .hlt := by decide

theorem witness_DisciplinedStepsDoNotFault :
    let s := sample 253 [0xA0, 0x07, 0x00]
    s.run = .running ∧ s.pc.toNat ≤ 253 ∧ decode s.cfg (s.byteAt 0) (s.byteAt 1) (s.byteAt 2) = .ok (.add 7 0) ∧
      (Instr.add 7 0).IndicesValid s.cfg ∧ answers (step s) (fun t => t.reg 7 == 0xFA) = true := by decide

/-- The sample stopped with a run state and a cause. -/
def stoppedWith (run : RunState) (stop : StopCause) : State := { sample 0 [] with run := run, stop := stop }

theorem witness_PortsShowTheStopCause :
    State.reset.Inv ∧ (sample 0 []).Inv ∧ (stoppedWith .halted (.halt .hlt)).Inv ∧
      (stoppedWith .halted (.halt .modZero)).Inv := by decide

theorem witness_PortsShowTheFaults :
    (stoppedWith .faulted (.fault (.outOfRangeMem 256))).Inv ∧ (stoppedWith .faulted (.fault (.outOfRangeReg 8))).Inv ∧
      (stoppedWith .faulted (.fault (.unknownOpcode 0))).Inv := by decide

theorem witness_StrobesFollowTheStep :
    answers (step (sample 251 [0x47, 0x00])) (fun t => decide (t.pc.toNat ≤ 253)) = true := by decide

-- The instruction rules: Ready at both ends of pc, a register named and a byte that names none, at the boundary.
theorem witness_Ready :
    Ready (sample 0 []) ∧ Ready (sample 253 []) ∧ (sample 253 []).cfg.opcodes = .ls8 ∧
      Ready { sample 0 [] with cfg := { otherConfig with opcodes := otherMap } } := by decide

theorem witness_Names : Names 0 0 ∧ Names 7 7 ∧ 8 ≤ (8 : Byte).toNat ∧ 8 ≤ (0xFF : Byte).toNat ∧ (7 : Byte).toNat < 8 := by decide

theorem witness_ReturnRule_JumpRule_CallRule :
    let s := poke (sample 0 [0x11]) 0xF4 254
    s.run = .running ∧ 254 ≤ (s.mem.read (s.reg 7).toNat).toNat ∧ Names 3 3 ∧ 254 ≤ (s.reg 3).toNat ∧
      answers (exec (.call 3) s) (fun t => t.run == .running && decide (254 ≤ t.pc.toNat)) = true := by decide

theorem witness_PushThenPopRestores : Ready (sample 251 []) ∧ (sample 251 []).pc.toNat + 2 ≤ 253 ∧ Names 7 7 ∧ Names 0 0 := by decide

theorem witness_CallThenReturnResumes :
    ∃ t, exec (.call 1) (sample 253 []) = .next t ∧
      (t.reg 7 == 0xF3 && t.mem.read 0xF3 == 0xFF && decide (Ready (sample 253 []) ∧ Names 1 1)) = true := of_answers (by decide)

theorem witness_EqualJumpRules_and_RelationalJumpRules :
    let cond (c : Byte → Bool) (rj : RelJumps) (fl : Byte) : Bool := c fl && rj == .branch
    (cond condEq .branch 0b001 && cond condNe .branch 0b000 && cond condGt .branch 0b010 && cond condLt .branch 0b100 &&
      cond condLe .branch 0b001 && cond condLe .branch 0b100 && cond condGe .branch 0b001 && cond condGe .branch 0b010 &&
      !cond condEq .branch 0b110 && !cond condNe .branch 0b001 && !cond condGt .branch 0b101 && !cond condLt .branch 0b011 &&
      !cond condLe .branch 0b010 && !cond condGe .branch 0b100 && !cond condGt .advance 0b010) = true := by decide

theorem witness_CompareThenJump :
    let s (u v : Byte) := coreAt (regs u v 0 0 0xF4) 0 250 []
    Ready (s 0xFF 1) ∧ (s 0xFF 1).pc.toNat + 3 ≤ 253 ∧ (s 0xFF 1).cfg.relJumps = .branch ∧
      answers (exec (.cmp 0 1) (s 0xFF 1)) (fun t => t.fl == 0b010) = true ∧
      answers (exec (.cmp 0 1) (s 1 0xFF)) (fun t => t.fl == 0b100) = true ∧
      answers (exec (.cmp 0 1) (s 0xFF 0xFF)) (fun t => t.fl == 0b001) = true := by decide

theorem witness_IncrementDecrementRules :
    let s := sample 253 [0x66, 0x00, 0x00]
    s.run = .running ∧ s.pc.toNat ≤ 253 ∧ s.cfg.opcodes = .ls8 ∧ s.cfg.admitIncDec = false ∧ s.byteAt 0 = 0x66 ∧
      (sample 0 [0x65]).byteAt 0 = 0x65 := by decide

theorem witness_NotRule :
    (sample 0 []).cfg.notSource = .operandB ∧ otherConfig.notSource = .operandA ∧ Names 0 0 ∧ Names 7 7 ∧
      8 ≤ (8 : Byte).toNat := by decide

theorem witness_ModRule : (sample 0 []).reg 0 ≠ 0 ∧ (sample 0 []).reg 2 = 0 := by decide

theorem witness_CompareRule :
    let s := sample 0 []
    (s.reg 0).toNat < (s.reg 1).toNat ∧ (s.reg 2).toNat < (s.reg 0).toNat ∧ (s.reg 4).toNat = (s.reg 2).toNat := by decide

theorem witness_HaltRule : Ready (sample 253 []) ∧ (sample 253 []).run = .running := by decide

end Sys2Proof.Tests
end

section
/-! SUPPORT. What one step can do, said as inversion lemmas on `step s = .next t` and `exec i s = .next t`, and the statements
about the state that follow from them. -/

namespace Sys2Proof.Machine

open Sys2Proof

/-! ### The faults of fetch and decode -/

/-- All that fetch and decode can raise (R91, R93, R228): OutOfRange(mem) above 253, else the byte at pc is not admitted. -/
theorem fetchInstr_error_cases {s : State} {c : FaultCause} (h : fetchInstr s = .error c) :
    (253 < s.pc.toNat ∧ c = .outOfRangeMem (BitVec.ofNat 9 (max s.pc.toNat 256))) ∨
      (s.pc.toNat ≤ 253 ∧ c = .unknownOpcode (s.byteAt 0) ∧ admittedOpcode s.cfg (s.byteAt 0) = false) := by
  rcases Nat.lt_or_ge 253 s.pc.toNat with hp | hp
  · rw [fetchInstr_of_gt hp, Except.error.injEq] at h
    exact .inl ⟨hp, h.symm⟩
  · refine .inr ⟨hp, ?_⟩
    rw [fetchInstr_of_le hp, decodeLatches, decode] at h
    unfold admittedOpcode
    cases hk : s.cfg.opcodes.mnemonicOf (s.byteAt 0) with
    | none => simp_all [State.byteAt]
    | some k => cases ha : s.cfg.admits k <;> simp_all [State.byteAt]

/-- From a pc the machine can reach, the fault of fetch or decode carries the info R220 gives it. -/
theorem stopAgrees_of_fetchInstr_error {s : State} {c : FaultCause} (hp : s.pc.toNat ≤ 256)
    (h : fetchInstr s = .error c) : stopAgrees s.cfg .faulted (.fault c) = true := by
  rcases fetchInstr_error_cases h with ⟨_, rfl⟩ | ⟨_, rfl, ha⟩
  · simp [stopAgrees, Nat.max_eq_right hp]
  · simp [stopAgrees, ha]

/-! ### What a step answers -/

theorem exec_next_cases {i : Instr} {s t : State} (h : exec i s = .next t) :
    (∃ b : Byte, 8 ≤ b.toNat ∧ t = s.faultWith (.outOfRangeReg b)) ∨ Completed i s t := by
  obtain ⟨u, hu, hcases⟩ := exec_shape i s
  obtain rfl : u = t := by simpa [hu] using h
  exact hcases

theorem step_next_cases {s t : State} (h : step s = .next t) :
    (s.run ≠ .running ∧ t = s) ∨
      (s.run = .running ∧ ∃ c, fetchInstr s = .error c ∧ t = s.faultWith c) ∨
      (s.run = .running ∧ ∃ i, fetchInstr s = .ok i ∧ exec i s = .next t) := by
  rcases step_cases s with ⟨hr, e⟩ | ⟨hr, c, hc, e⟩ | ⟨hr, i, hi, e⟩
  · exact .inl ⟨hr, by simpa [e, eq_comm] using h⟩
  · exact .inr (.inl ⟨hr, c, hc, by simpa [e, eq_comm] using h⟩)
  · exact .inr (.inr ⟨hr, i, hi, e ▸ h⟩)

/-- All that a step can do, by its effect: rest, fault on fetch, decode or a register operand, or complete an instruction. -/
theorem step_effect_cases {s t : State} (h : step s = .next t) :
    (s.run ≠ .running ∧ t = s) ∨
      (s.run = .running ∧ ∃ c, t = s.faultWith c ∧
        (s.pc.toNat ≤ 256 → stopAgrees s.cfg .faulted (.fault c) = true)) ∨
      (s.run = .running ∧ ∃ i, fetchInstr s = .ok i ∧ Completed i s t) := by
  rcases step_next_cases h with hrest | ⟨hr, c, hc, rfl⟩ | ⟨hr, i, hi, hex⟩
  · exact .inl hrest
  · exact .inr (.inl ⟨hr, c, rfl, fun hp => stopAgrees_of_fetchInstr_error hp hc⟩)
  · rcases exec_next_cases hex with ⟨b, hb, rfl⟩ | hdone
    · exact .inr (.inl ⟨hr, _, rfl, fun _ => by simpa [stopAgrees] using hb⟩)
    · exact .inr (.inr ⟨hr, i, hi, hdone⟩)

/-- A step appends at most one event (R33). -/
theorem step_out_cases {s t : State} (h : step s = .next t) : t.out = s.out ∨ ∃ e, t.out = s.out ++ [e] := by
  rcases step_effect_cases h with ⟨_, rfl⟩ | ⟨_, c, rfl, _⟩ | ⟨_, i, _, hdone⟩
  · exact .inl rfl
  · exact .inl rfl
  · exact hdone.out

/-! ### The invariant -/

theorem State.Inv.faultWith {s : State} (h : s.Inv) {c : FaultCause}
    (hc : s.pc.toNat ≤ 256 → stopAgrees s.cfg .faulted (.fault c) = true) : (s.faultWith c).Inv := by
  obtain ⟨hlegal, hmem, hpc, hfl, -⟩ := h
  exact ⟨hlegal, hmem, hpc, hfl, hc hpc⟩

/-- A completed instruction keeps each part of the invariant; its pc is at most 253 + 3 (R27, R74) or a byte. -/
theorem Completed.inv {i : Instr} {s t : State} (h : Completed i s t) (hs : s.Inv) (hp : s.pc.toNat ≤ 253) : t.Inv := by
  obtain ⟨hlegal, hwf, -, hflLegal, hagrees⟩ := hs
  have hmem : t.mem.wf := by
    rcases h.mem with e | ⟨a, v, e⟩
    · exact e ▸ hwf
    · exact e ▸ Memory.wf_write_byte hwf a v
  have hpc : t.pc.toNat ≤ 256 := by
    rcases h.pc with e | ⟨v, e⟩
    · have := Config.lenOf_le_three hlegal i.mnemonic
      rw [e, nextPc_toNat hlegal hp]
      omega
    · have := v.isLt
      rw [e, BitVec.toNat_setWidth]
      omega
  have hfl : flLegal t.fl := by
    rcases h.fl with e | ⟨u, v, e⟩
    · exact e ▸ hflLegal
    · exact .inr (e ▸ compareFlags_legal u v)
  have hstop : stopAgrees t.cfg t.run t.stop = true := by
    rcases h.run with ⟨hr, hs⟩ | ⟨hr, c, hs⟩
    · rw [h.cfg, hr, hs, hagrees]
    · rw [hr, hs, stopAgrees]
  exact ⟨h.cfg ▸ hlegal, hmem, hpc, hfl, hstop⟩

/-- Settles O20: a rest keeps the state, a fault records its info, a completed instruction keeps each part. -/
theorem stepKeepsTheInvariant : Obligations.StepKeepsTheInvariant := by
  intro s t hs h
  rcases step_effect_cases h with ⟨_, rfl⟩ | ⟨_, c, rfl, hc⟩ | ⟨_, i, hi, hdone⟩
  · exact hs
  · exact hs.faultWith hc
  · exact hdone.inv hs (pc_le_of_fetchInstr hi)

/-! ### Answers and rests -/

/-- Settles O16: every arm of exec answers a next state (`exec_shape`), and so does every fault. -/
theorem everyStepAnswersANextState : Obligations.EveryStepAnswersANextState := by
  refine fun s => ⟨?_, step_of_not_running⟩
  rcases step_cases s with ⟨_, e⟩ | ⟨_, c, _, e⟩ | ⟨_, i, _, e⟩
  · exact ⟨_, e⟩
  · exact ⟨_, e⟩
  · obtain ⟨t, ht, _⟩ := exec_shape i s
    exact ⟨t, e.trans ht⟩

theorem reaches_self_of_not_running {s : State} (hr : s.run ≠ .running) (n : Nat) : Reaches s n s := by
  induction n with
  | zero => exact .zero s
  | succ n ih => exact .succ (step_of_not_running hr) ih

/-- A host action accepted while the core is stopped rests or is a reset (R252, R257). -/
theorem hostStep_next_of_stopped {s t : State} (hr : s.run = .halted ∨ s.run = .faulted) {a : HostAction}
    (h : hostStep a s = .next t) : t = s ∨ a = .reset ∧ t = State.resetWith s.cfg := by
  cases a with
  | reset => exact .inr ⟨rfl, by simpa [hostStep, hostReset, eq_comm] using h⟩
  | load image => rcases hr with hr | hr <;> simp [hostStep, hostLoad, hr] at h
  | write addr v => rcases hr with hr | hr <;> simp [hostStep, hostWrite, hr] at h
  | start => rcases hr with hr | hr <;> exact .inl (by simpa [hostStep, hostStart, hr, eq_comm] using h)

/-- Settles O19, by induction on the number of steps and by cases on the host's action. -/
theorem onlyResetLeavesAStop : Obligations.OnlyResetLeavesAStop := by
  refine fun s => ⟨reaches_self_of_not_running, fun hr a t h => ?_⟩
  rcases hostStep_next_of_stopped hr h with rfl | ⟨rfl, rfl⟩
  · exact .inl rfl
  · exact .inr ⟨rfl, rfl⟩

/-- Settles O24: no case of a step touches either field. -/
theorem stepKeepsConfigAndInterruptEnable : Obligations.StepKeepsConfigAndInterruptEnable := by
  intro s t h
  rcases step_effect_cases h with ⟨_, rfl⟩ | ⟨_, c, rfl, _⟩ | ⟨_, i, _, hdone⟩
  · exact ⟨rfl, rfl⟩
  · exact ⟨rfl, rfl⟩
  · exact ⟨hdone.ie, hdone.cfg⟩

/-! ### Who halts, who prints, who writes FL -/

/-- Run state, stop cause, FL and output are unchanged. -/
def Quiet (s t : State) : Prop := t.run = s.run ∧ t.stop = s.stop ∧ t.fl = s.fl ∧ t.out = s.out

/-- The completed instructions that halt, write FL or emit (R30, R28, R33), each with its next state. -/
inductive Signals (s : State) : Instr → State → Prop where
  | hlt : Signals s .hlt ((s.haltWith .hlt).advance .hlt)
  | modZero (a b : Byte) (j : Fin 8) (hb : Names b j) (hz : s.reg j = 0) :
      Signals s (.mod a b) ((s.haltWith .modZero).advance .mod)
  | cmp (a b u v : Byte) : Signals s (.cmp a b) ((s.setFl (compareFlags u v)).advance .cmp)
  | prn (a : Byte) (j : Fin 8) (ha : Names a j) : Signals s (.prn a) ((s.emit .dec (s.reg j)).advance .prn)
  | pra (a : Byte) (j : Fin 8) (ha : Names a j) : Signals s (.pra a) ((s.emit .chr (s.reg j)).advance .pra)

/-- An answer that is a register fault, quiet, or one of the signals of the instruction. -/
def QuietOrSignals (i : Instr) (s : State) (r : Result) : Prop :=
  ∃ t, r = .next t ∧ ((∃ c, t = s.faultWith c) ∨ Quiet s t ∨ Signals s i t)

theorem QuietOrSignals.of_quiet {i : Instr} {s t : State} (h : Quiet s t) : QuietOrSignals i s (.next t) :=
  ⟨t, rfl, .inr (.inl h)⟩

theorem QuietOrSignals.of_signals {i : Instr} {s t : State} (h : Signals s i t) : QuietOrSignals i s (.next t) :=
  ⟨t, rfl, .inr (.inr h)⟩

theorem QuietOrSignals.withReg {i : Instr} {s : State} {b : Byte} {k : Fin 8 → Result}
    (h : ∀ r, Names b r → QuietOrSignals i s (k r)) : QuietOrSignals i s (withReg b s k) := by
  rcases withReg_cases b s k with ⟨r, hr, e⟩ | ⟨_, e⟩
  · exact e ▸ h r hr
  · exact ⟨_, e, .inl ⟨_, rfl⟩⟩

theorem QuietOrSignals.withRegs {i : Instr} {s : State} {a b : Byte} {k : Fin 8 → Fin 8 → Result}
    (h : ∀ p q, Names b q → QuietOrSignals i s (k p q)) : QuietOrSignals i s (withRegs a b s k) :=
  .withReg fun p _ => .withReg fun q hq => h p q hq

theorem QuietOrSignals.binaryAlu {i : Instr} {s : State} {k : Mnemonic} {f : Byte → Byte → Byte} {a b : Byte} :
    QuietOrSignals i s (binaryAlu k f a b s) :=
  .withRegs fun _ _ _ => .of_quiet ⟨rfl, rfl, rfl, rfl⟩

theorem QuietOrSignals.unaryAlu {i : Instr} {s : State} {k : Mnemonic} {f : Byte → Byte} {a : Byte} :
    QuietOrSignals i s (unaryAlu k f a s) :=
  .withReg fun _ _ => .of_quiet ⟨rfl, rfl, rfl, rfl⟩

theorem QuietOrSignals.takeJump {i : Instr} {s : State} {a : Byte} : QuietOrSignals i s (takeJump a s) :=
  .withReg fun _ _ => .of_quiet ⟨rfl, rfl, rfl, rfl⟩

theorem QuietOrSignals.jumpIf {i : Instr} {s : State} {k : Mnemonic} {c : Bool} {a : Byte} :
    QuietOrSignals i s (jumpIf k c a s) := by
  unfold Sys2Proof.Machine.jumpIf
  split
  · exact .takeJump
  · exact .of_quiet ⟨rfl, rfl, rfl, rfl⟩

theorem QuietOrSignals.relJumpIf {i : Instr} {s : State} {k : Mnemonic} {c : Bool} {a : Byte} :
    QuietOrSignals i s (relJumpIf k c a s) := by
  rw [relJumpIf_eq]
  exact .jumpIf

/-- HLT, MOD by zero, CMP, PRN and PRA apart, an instruction that raises no fault is quiet. -/
theorem exec_quietOrSignals (i : Instr) (s : State) : QuietOrSignals i s (exec i s) := by
  cases i with
  | hlt => exact .of_signals .hlt
  | ret | iret | int a => exact .of_quiet ⟨rfl, rfl, rfl, rfl⟩
  | push a | pop a | call a | ldi a b =>
    simp only [exec, execPush, execPop, execCall, execLdi]
    exact .withReg fun _ _ => .of_quiet ⟨rfl, rfl, rfl, rfl⟩
  | ld a b | st a b =>
    simp only [exec, execLd, execSt]
    exact .withRegs fun _ _ _ => .of_quiet ⟨rfl, rfl, rfl, rfl⟩
  | prn a => exact .withReg fun j hj => .of_signals (.prn a j hj)
  | pra a => exact .withReg fun j hj => .of_signals (.pra a j hj)
  | jmp a => exact .takeJump
  | jeq a | jne a => exact .jumpIf
  | jgt a | jlt a | jle a | jge a => exact .relJumpIf
  | inc a | dec a => exact .unaryAlu
  | add a b | sub a b | mul a b | and a b | or a b | xor a b | shl a b | shr a b => exact .binaryAlu
  | not a b =>
    simp only [exec, execNot]
    split
    · exact .binaryAlu
    · exact .unaryAlu
  | mod a b =>
    simp only [exec, execMod]
    refine .withRegs fun i j hj => ?_
    split
    · exact .of_signals (.modZero a b j hj ‹_›)
    · exact .of_quiet ⟨rfl, rfl, rfl, rfl⟩
  | cmp a b =>
    simp only [exec, execCmp]
    exact .withRegs fun _ _ _ => .of_signals (.cmp a b _ _)

/-- All that a step can do to run state, stop cause, FL and output. -/
theorem step_signal_cases {s t : State} (h : step s = .next t) :
    Quiet s t ∨ (∃ c, t = s.faultWith c) ∨ ∃ i, fetchInstr s = .ok i ∧ Signals s i t := by
  rcases step_next_cases h with ⟨_, rfl⟩ | ⟨_, c, _, rfl⟩ | ⟨_, i, hi, hex⟩
  · exact .inl ⟨rfl, rfl, rfl, rfl⟩
  · exact .inr (.inl ⟨c, rfl⟩)
  · obtain ⟨u, hu, hcases⟩ := exec_quietOrSignals i s
    obtain rfl : u = t := by simpa [hu] using hex
    rcases hcases with hfault | hquiet | hsignals
    · exact .inr (.inl hfault)
    · exact .inl hquiet
    · exact .inr (.inr ⟨i, hi, hsignals⟩)

/-- What a halt leaves unchanged, with the advance after it (R96, R227, D12). -/
theorem haltWith_advance_frame {s : State} (hlegal : s.cfg.opcodes.legal = true) (hp : s.pc.toNat ≤ 253) (c : HaltCause)
    (k : Mnemonic) :
    let t := (s.haltWith c).advance k
    t.pc.toNat = s.pc.toNat + s.cfg.lenOf k ∧ SameRegs [] s t ∧ SameMem s t ∧ SameFlags s t ∧ t.out = s.out :=
  ⟨nextPc_toNat hlegal hp k, fun _ _ => rfl, fun _ => rfl, ⟨rfl, rfl, rfl⟩, rfl⟩

/-- Settles O18: of the signals only HLT and MOD by zero leave the core Halted. -/
theorem onlyHltAndZeroModHalt : Obligations.OnlyHltAndZeroModHalt := by
  intro s t hr hlegal h ht
  rcases step_signal_cases h with ⟨hrun, -⟩ | ⟨c, rfl⟩ | ⟨i, hi, hsignals⟩
  · simp [hrun, hr] at ht
  · simp at ht
  · have hframe := haltWith_advance_frame hlegal (pc_le_of_fetchInstr hi)
    refine ⟨i, hi, ?_⟩
    cases hsignals with
    | hlt =>
      obtain ⟨hpc, hregs, hmem, hflags, hout⟩ := hframe .hlt .hlt
      exact ⟨hpc, hregs, hmem, hflags, hout, .inl ⟨rfl, rfl⟩⟩
    | modZero a b j hb hz =>
      obtain ⟨hpc, hregs, hmem, hflags, hout⟩ := hframe .modZero .mod
      exact ⟨hpc, hregs, hmem, hflags, hout, .inr ⟨a, b, j, rfl, hb, hz, rfl⟩⟩
    | cmp a b u v => simp [hr] at ht
    | prn a j ha => simp [hr] at ht
    | pra a j ha => simp [hr] at ht

/-- Settles O27: of the signals only PRN and PRA change the output. -/
theorem onlyPrintsEmit : Obligations.OnlyPrintsEmit := by
  intro s t h hne
  rcases step_signal_cases h with ⟨-, -, -, hout⟩ | ⟨c, rfl⟩ | ⟨i, hi, hsignals⟩
  · exact absurd hout hne
  · exact absurd rfl hne
  · cases hsignals with
    | hlt | modZero | cmp => exact absurd rfl hne
    | prn a j ha => exact ⟨a, j, ha, .inl ⟨hi, rfl⟩⟩
    | pra a j ha => exact ⟨a, j, ha, .inr ⟨hi, rfl⟩⟩

/-- Settles O28: of the signals only CMP changes FL, to a value of compareFlags. -/
theorem onlyCmpWritesFlags : Obligations.OnlyCmpWritesFlags := by
  intro s t h hne
  rcases step_signal_cases h with ⟨-, -, hfl, -⟩ | ⟨c, rfl⟩ | ⟨i, hi, hsignals⟩
  · exact absurd hfl hne
  · exact absurd rfl hne
  · cases hsignals with
    | hlt | modZero | prn | pra => exact absurd rfl hne
    | cmp a b u v => exact ⟨⟨a, b, hi⟩, compareFlags_legal u v⟩

/-! ### What a step never reads -/

/-- The same core with another IE and with more output before its own: what no step can tell apart (R29, R33). -/
def State.disguise (ie : Bool) (before : List OutEvent) (s : State) : State :=
  { s with ie := ie, out := before ++ s.out }

/-- An answer with its next state disguised. -/
def disguiseResult (ie : Bool) (before : List OutEvent) : Result → Result
  | .next t => .next (t.disguise ie before)
  | .fault r => .fault r
  | .refused r => .refused r

section
variable (ie : Bool) (before : List OutEvent)

@[simp] theorem State.disguise_cfg (s : State) : (s.disguise ie before).cfg = s.cfg := rfl

@[simp] theorem State.disguise_run (s : State) : (s.disguise ie before).run = s.run := rfl

@[simp] theorem State.disguise_reg (s : State) (r : Fin 8) : (s.disguise ie before).reg r = s.reg r := rfl

theorem State.disguise_emit_advance (s : State) (kind : OutKind) (v : Byte) (k : Mnemonic) :
    ((s.disguise ie before).emit kind v).advance k = ((s.emit kind v).advance k).disguise ie before := by
  simp only [State.disguise, State.emit, List.append_assoc]
  rfl

theorem fetchInstr_disguise (s : State) : fetchInstr (s.disguise ie before) = fetchInstr s := rfl

/-- RegIdx does not see the disguise when its continuation does not; the fault it raises is disguised alike. -/
theorem withReg_disguise {b : Byte} {s : State} {k k' : Fin 8 → Result}
    (h : ∀ i, k' i = disguiseResult ie before (k i)) :
    withReg b (s.disguise ie before) k' = disguiseResult ie before (withReg b s k) := by
  rcases withReg_cases b s k with ⟨i, hi, e⟩ | ⟨hb, e⟩
  · rw [e, withReg_of_names hi, h]
  · rw [e, withReg_of_ge hb]
    rfl

theorem withRegs_disguise {a b : Byte} {s : State} {k k' : Fin 8 → Fin 8 → Result}
    (h : ∀ i j, k' i j = disguiseResult ie before (k i j)) :
    withRegs a b (s.disguise ie before) k' = disguiseResult ie before (withRegs a b s k) :=
  withReg_disguise ie before fun i => withReg_disguise ie before fun j => h i j

theorem binaryAlu_disguise (k : Mnemonic) (f : Byte → Byte → Byte) (a b : Byte) (s : State) :
    binaryAlu k f a b (s.disguise ie before) = disguiseResult ie before (binaryAlu k f a b s) :=
  withRegs_disguise ie before fun _ _ => rfl

theorem unaryAlu_disguise (k : Mnemonic) (f : Byte → Byte) (a : Byte) (s : State) :
    unaryAlu k f a (s.disguise ie before) = disguiseResult ie before (unaryAlu k f a s) :=
  withReg_disguise ie before fun _ => rfl

theorem emitReg_disguise (k : Mnemonic) (kind : OutKind) (a : Byte) (s : State) :
    emitReg k kind a (s.disguise ie before) = disguiseResult ie before (emitReg k kind a s) :=
  withReg_disguise ie before fun _ => congrArg _ (State.disguise_emit_advance ..)

theorem takeJump_disguise (a : Byte) (s : State) :
    takeJump a (s.disguise ie before) = disguiseResult ie before (takeJump a s) :=
  withReg_disguise ie before fun _ => rfl

theorem jumpIf_disguise (k : Mnemonic) (c : Bool) (a : Byte) (s : State) :
    jumpIf k c a (s.disguise ie before) = disguiseResult ie before (jumpIf k c a s) := by
  cases c with
  | true => exact takeJump_disguise ie before a s
  | false => rfl

theorem relJumpIf_disguise (k : Mnemonic) (c : Bool) (a : Byte) (s : State) :
    relJumpIf k c a (s.disguise ie before) = disguiseResult ie before (relJumpIf k c a s) := by
  rw [relJumpIf_eq, relJumpIf_eq]
  exact jumpIf_disguise ie before k _ a s

/-- No instruction sees the disguise. -/
theorem exec_disguise (i : Instr) (s : State) :
    exec i (s.disguise ie before) = disguiseResult ie before (exec i s) := by
  cases i with
  | hlt | ret | iret | int a => rfl
  | push a | pop a | call a | ldi a b =>
    simp only [exec, execPush, execPop, execCall, execLdi]
    exact withReg_disguise ie before fun _ => rfl
  | ld a b | st a b | cmp a b =>
    simp only [exec, execLd, execSt, execCmp]
    exact withRegs_disguise ie before fun _ _ => rfl
  | prn a | pra a => exact emitReg_disguise ie before _ _ a s
  | jmp a => exact takeJump_disguise ie before a s
  | jeq a | jne a => exact jumpIf_disguise ie before _ _ a s
  | jgt a | jlt a | jle a | jge a => exact relJumpIf_disguise ie before _ _ a s
  | inc a | dec a => exact unaryAlu_disguise ie before _ _ a s
  | add a b | sub a b | mul a b | and a b | or a b | xor a b | shl a b | shr a b =>
    exact binaryAlu_disguise ie before _ _ a b s
  | not a b =>
    simp only [exec, execNot, State.disguise_cfg]
    split
    · exact binaryAlu_disguise ie before _ _ a b s
    · exact unaryAlu_disguise ie before _ _ a s
  | mod a b =>
    simp only [exec, execMod]
    refine withRegs_disguise ie before fun i j => ?_
    rw [State.disguise_reg, apply_ite (disguiseResult ie before)]
    rfl

/-- No step sees the disguise: it answers the same next state under the same disguise. -/
theorem step_disguise {s t : State} (h : step s = .next t) :
    step (s.disguise ie before) = .next (t.disguise ie before) := by
  have hrun := State.disguise_run ie before s
  have hfetch := fetchInstr_disguise ie before s
  rcases step_next_cases h with ⟨hr, rfl⟩ | ⟨hr, c, hc, rfl⟩ | ⟨hr, i, hi, hex⟩
  · exact step_of_not_running (hrun ▸ hr)
  · exact step_of_error (hrun.trans hr) (hfetch.trans hc)
  · rw [step_of_ok (hrun.trans hr) (hfetch.trans hi), exec_disguise, hex]
    rfl

end

/-- Settles O25: another IE is a disguise with no output put before. -/
theorem interruptEnableIsNeverRead : Obligations.InterruptEnableIsNeverRead :=
  fun _ _ b h => step_disguise b [] h

/-- Settles O26: the step from the empty output appends the events, and any earlier output is a disguise of it. -/
theorem outputIsNeverRead : Obligations.OutputIsNeverRead := by
  intro s t h
  obtain ⟨⟨u, hu⟩, -⟩ := everyStepAnswersANextState { s with out := [] }
  have hie : u.ie = s.ie := (stepKeepsConfigAndInterruptEnable _ _ hu).1
  have hall : ∀ before, step { s with out := before } = .next { u with out := before ++ u.out } := by
    intro before
    have := step_disguise s.ie before hu
    simpa [State.disguise, ← hie] using this
  obtain rfl : { u with out := s.out ++ u.out } = t := by
    have := (hall s.out).symm.trans h
    simpa using this
  exact ⟨u.out, rfl, hall⟩

/-! ### Ports -/

/-- Settles O35: at most one event is appended (`step_out_cases`), and the strobe shows it. -/
theorem strobesFollowTheStep : Obligations.StrobesFollowTheStep := by
  intro s t h
  refine ⟨?_, ?_, rfl, rfl, fun _ => rfl, fun hp => ?_⟩
  · rcases step_out_cases h with e | ⟨e, he⟩
    · simp [outStrobe, e]
    · simp [outStrobe, he]
  · simp [tracePoint, retires]
  · have hcell : ∀ k ≤ 2, cellAt t (t.pc.toNat + k) = some (t.byteAt k) := fun k hk =>
      if_pos (show t.pc.toNat + k < 256 by omega)
    simpa [traceOf] using ⟨hcell 0 (by omega), hcell 1 (by omega), hcell 2 (by omega)⟩

/-- Of a word with a byte put under it, position 8i + k is in the byte for i = 0 and in the word, a byte lower, above. -/
theorem getLsbD_append_byte {n : Nat} (x : BitVec n) (y : Byte) (i : Nat) {k : Nat} (hk : k < 8) :
    (x ++ y).getLsbD (8 * i + k) = if i = 0 then y.getLsbD k else x.getLsbD (8 * (i - 1) + k) := by
  rw [BitVec.getLsbD_append]
  by_cases hi : i = 0
  · simp [hi, hk]
  · rw [if_neg (by omega), if_neg hi, show 8 * i + k - 8 = 8 * (i - 1) + k by omega]

/-- Bit 8i + k of the debug port's register word is bit k of x[i] (R38). -/
theorem dbgRegs_getLsbD (s : State) (i : Fin 8) {k : Nat} (hk : k < 8) :
    (dbgRegs s).getLsbD (8 * i.val + k) = (s.reg i).getLsbD k := by
  refine (getLsbD_append_byte _ _ _ hk).trans ?_
  simp only [getLsbD_append_byte _ _ _ hk]
  fin_cases i <;> simp

/-- Settles O34: three ports are fields, the fourth is `dbgRegs_getLsbD`. -/
theorem debugPortShowsTheRegisters : Obligations.DebugPortShowsTheRegisters :=
  fun s => ⟨rfl, rfl, rfl, fun i _ hk => dbgRegs_getLsbD s i hk⟩

end Sys2Proof.Machine
end

section
/-! SUPPORT. The bus accesses of a step (R55, R60, R61) beside its effect on memory, a byte stored over the next opcode (R64,
R262), and what the host must not do (R59, R239, R257). -/

namespace Sys2Proof.Machine

open Sys2Proof

/-! ### RegIdx on the bus -/

theorem onReg_of_names {b : Byte} {i : Fin 8} (h : Names b i) (accs : Fin 8 → List Access) : onReg b accs = accs i := by
  have hb : b.toNat < 8 := h ▸ i.isLt
  rw [onReg, dif_pos hb]
  congr 1
  exact Fin.ext h

theorem onReg_of_ge {b : Byte} (h : 8 ≤ b.toNat) (accs : Fin 8 → List Access) : onReg b accs = [] := dif_neg (by omega)

/-- All that RegIdx can do on the bus: name a register, or fault with no access made (R12). -/
theorem onReg_cases (b : Byte) (accs : Fin 8 → List Access) :
    (∃ i : Fin 8, Names b i ∧ onReg b accs = accs i) ∨ (8 ≤ b.toNat ∧ onReg b accs = []) := by
  rcases Nat.lt_or_ge b.toNat 8 with h | h
  · exact .inl ⟨⟨b.toNat, h⟩, rfl, onReg_of_names rfl accs⟩
  · exact .inr ⟨h, onReg_of_ge h accs⟩

theorem onReg_nil (b : Byte) : (onReg b fun _ => []) = [] := by
  rcases onReg_cases b fun _ => [] with ⟨_, _, e⟩ | ⟨_, e⟩ <;> exact e

theorem length_onReg_le {b : Byte} {accs : Fin 8 → List Access} {n : Nat} (h : ∀ i, (accs i).length ≤ n) :
    (onReg b accs).length ≤ n := by
  rcases onReg_cases b accs with ⟨i, _, e⟩ | ⟨_, e⟩
  · exact e ▸ h i
  · exact e ▸ Nat.zero_le n

/-! ### The accesses of a step, phase by phase -/

theorem busAccesses_of_not_running {s : State} (hr : s.run ≠ .running) : busAccesses s = [] := if_neg hr

theorem busAccesses_of_error {s : State} (hr : s.run = .running) {c : FaultCause} (h : fetchInstr s = .error c) :
    busAccesses s = fetchAccesses s := by
  simp [busAccesses, hr, h]

theorem busAccesses_of_ok {s : State} (hr : s.run = .running) {i : Instr} (h : fetchInstr s = .ok i) :
    busAccesses s = fetchAccesses s ++ execAccesses i s := by
  simp [busAccesses, hr, h]

/-- The read presented for an existing address of the fetch carries that address's byte. -/
theorem readAccess_ofNat (s : State) {n : Nat} (h : n < memSize) :
    readAccess s (BitVec.ofNat 8 n) = .read (BitVec.ofNat 8 n) (s.mem.read n) := by
  have e : (BitVec.ofNat 8 n).toNat = n := (BitVec.toNat_ofNat ..).trans (Nat.mod_eq_of_lt h)
  rw [readAccess, State.load, e]

/-- A fetch at 253 or below presents all three reads (R91). -/
theorem fetchAccesses_of_le {s : State} (h : s.pc.toNat ≤ 253) :
    fetchAccesses s =
      [.read (BitVec.ofNat 8 s.pc.toNat) (s.byteAt 0), .read (BitVec.ofNat 8 (s.pc.toNat + 1)) (s.byteAt 1),
        .read (BitVec.ofNat 8 (s.pc.toNat + 2)) (s.byteAt 2)] := by
  have hlt : ∀ k ≤ 2, s.pc.toNat + k < memSize := fun k hk => by simp only [memSize]; omega
  have h0 : s.pc.toNat < memSize := hlt 0 (by omega)
  have h1 := hlt 1 (by omega)
  have h2 := hlt 2 (by omega)
  simp only [fetchAccesses, List.takeWhile, h0, h1, h2, decide_true, List.map, readAccess_ofNat]
  rfl

/-- The fetch makes only reads, so it leaves any memory as it was (R55). -/
theorem foldl_apply_fetchAccesses (s : State) (m : Memory) : (fetchAccesses s).foldl Access.apply m = m := by
  rw [fetchAccesses, List.foldl_map]
  exact List.foldl_fixed' (fun _ => rfl) _

/-! ### The writes on the bus are the change of memory -/

/-- The answer is a next state whose memory is that of s with the accesses applied in order. -/
def MemoryFollows (accs : List Access) (s : State) (r : Result) : Prop :=
  ∃ t, r = .next t ∧ t.mem = accs.foldl Access.apply s.mem

theorem MemoryFollows.of_next {accs : List Access} {s t : State} (h : t.mem = accs.foldl Access.apply s.mem) :
    MemoryFollows accs s (.next t) := ⟨t, rfl, h⟩

/-- A bad index makes no access and its fault keeps the memory; a register goes on as it did. -/
theorem MemoryFollows.withReg {s : State} {b : Byte} {accs : Fin 8 → List Access} {k : Fin 8 → Result}
    (h : ∀ i, MemoryFollows (accs i) s (k i)) : MemoryFollows (onReg b accs) s (withReg b s k) := by
  rcases withReg_cases b s k with ⟨i, hi, e⟩ | ⟨hb, e⟩
  · rw [e, onReg_of_names hi]
    exact h i
  · rw [e, onReg_of_ge hb]
    exact .of_next rfl

theorem MemoryFollows.withReg_nil {s : State} {b : Byte} {k : Fin 8 → Result} (h : ∀ i, MemoryFollows [] s (k i)) :
    MemoryFollows [] s (Machine.withReg b s k) := onReg_nil b ▸ .withReg h

theorem MemoryFollows.withRegs_nil {s : State} {a b : Byte} {k : Fin 8 → Fin 8 → Result}
    (h : ∀ i j, MemoryFollows [] s (k i j)) : MemoryFollows [] s (withRegs a b s k) :=
  .withReg_nil fun i => .withReg_nil fun j => h i j

theorem MemoryFollows.takeJump {s : State} {a : Byte} : MemoryFollows [] s (takeJump a s) :=
  .withReg_nil fun _ => .of_next rfl

theorem MemoryFollows.jumpIf {s : State} {k : Mnemonic} {c : Bool} {a : Byte} : MemoryFollows [] s (jumpIf k c a s) := by
  cases c with
  | true => exact .takeJump
  | false => exact .of_next rfl

theorem MemoryFollows.relJumpIf {s : State} {k : Mnemonic} {c : Bool} {a : Byte} :
    MemoryFollows [] s (relJumpIf k c a s) := by
  rw [relJumpIf_eq]
  exact .jumpIf

theorem MemoryFollows.binaryAlu {s : State} {k : Mnemonic} {f : Byte → Byte → Byte} {a b : Byte} :
    MemoryFollows [] s (binaryAlu k f a b s) := .withRegs_nil fun _ _ => .of_next rfl

theorem MemoryFollows.unaryAlu {s : State} {k : Mnemonic} {f : Byte → Byte} {a : Byte} :
    MemoryFollows [] s (unaryAlu k f a s) := .withReg_nil fun _ => .of_next rfl

theorem MemoryFollows.emitReg {s : State} {k : Mnemonic} {kind : OutKind} {a : Byte} :
    MemoryFollows [] s (emitReg k kind a s) := .withReg_nil fun _ => .of_next rfl

/-- The execute-phase accesses of an instruction are its effect on memory: ST, PUSH and CALL write, the rest keep it. -/
theorem exec_memoryFollows (i : Instr) (s : State) : MemoryFollows (execAccesses i s) s (exec i s) := by
  cases i with
  | hlt | ret | iret | int a => exact .of_next rfl
  | push a | pop a | call a =>
    simp only [execAccesses, exec, execPush, execPop, execCall]
    exact .withReg fun _ => .of_next rfl
  | ld a b | st a b =>
    simp only [execAccesses, exec, execLd, execSt]
    exact .withReg fun _ => .withReg fun _ => .of_next rfl
  | prn a | pra a => exact .emitReg
  | jmp a => exact .takeJump
  | jeq a | jne a => exact .jumpIf
  | jgt a | jlt a | jle a | jge a => exact .relJumpIf
  | inc a | dec a => exact .unaryAlu
  | add a b | sub a b | mul a b | and a b | or a b | xor a b | shl a b | shr a b => exact .binaryAlu
  | not a b =>
    simp only [execAccesses, exec, execNot]
    split
    · exact .binaryAlu
    · exact .unaryAlu
  | ldi a b =>
    simp only [execAccesses, exec, execLdi]
    exact .withReg_nil fun _ => .of_next rfl
  | cmp a b =>
    simp only [execAccesses, exec, execCmp]
    exact .withRegs_nil fun _ _ => .of_next rfl
  | mod a b =>
    simp only [execAccesses, exec, execMod]
    refine .withRegs_nil fun _ _ => ?_
    split <;> exact .of_next rfl

/-- Settles O29: a rest and a fault of fetch or decode write nothing, an instruction as `exec_memoryFollows` says. -/
theorem busWritesAreTheMemoryChange : Obligations.BusWritesAreTheMemoryChange := by
  intro s t h
  rcases step_next_cases h with ⟨hr, rfl⟩ | ⟨hr, c, hc, rfl⟩ | ⟨hr, i, hi, hex⟩
  · rw [busAccesses_of_not_running hr]
    rfl
  · rw [busAccesses_of_error hr hc, foldl_apply_fetchAccesses]
    rfl
  · obtain ⟨u, hu, hmem⟩ := exec_memoryFollows i s
    obtain rfl : u = t := by simpa [hu] using hex
    rw [busAccesses_of_ok hr hi, List.foldl_append, foldl_apply_fetchAccesses, hmem]

/-! ### R61's table -/

/-- SP - 1 of the stack logic is the byte subtraction (R134, R185). -/
theorem aluDec_eq_sub_one (u : Byte) : aluDec u = u - 1 := by
  apply BitVec.eq_of_toNat_eq
  rw [aluDec_toNat, BitVec.toNat_sub]
  simp
  omega

theorem length_execAccesses_le_one (i : Instr) (s : State) : (execAccesses i s).length ≤ 1 := by
  cases i with
  | ld a b | st a b =>
    rw [execAccesses]
    exact length_onReg_le fun _ => length_onReg_le fun _ => Nat.le_refl 1
  | push a | pop a | call a =>
    rw [execAccesses]
    exact length_onReg_le fun _ => Nat.le_refl 1
  | ret => exact Nat.le_refl 1
  | _ => exact Nat.zero_le 1

theorem execAccesses_ld {a b : Byte} {p q : Fin 8} (ha : Names a p) (hb : Names b q) (s : State) :
    execAccesses (.ld a b) s = [.read (s.reg q) (s.mem.read (s.reg q).toNat)] := by
  rw [execAccesses, onReg_of_names ha, onReg_of_names hb]
  rfl

theorem execAccesses_st {a b : Byte} {p q : Fin 8} (ha : Names a p) (hb : Names b q) (s : State) :
    execAccesses (.st a b) s = [.write (s.reg p) (s.reg q)] := by
  rw [execAccesses, onReg_of_names ha, onReg_of_names hb]

theorem execAccesses_push {a : Byte} {p : Fin 8} (ha : Names a p) (s : State) :
    execAccesses (.push a) s = [.write (s.reg 7 - 1) (s.decSp.reg p)] := by
  rw [execAccesses, onReg_of_names ha, State.decSp_sp, aluDec_eq_sub_one]
  rfl

theorem execAccesses_pop {a : Byte} {p : Fin 8} (ha : Names a p) (s : State) :
    execAccesses (.pop a) s = [.read (s.reg 7) (s.mem.read (s.reg 7).toNat)] := by
  rw [execAccesses, onReg_of_names ha]
  rfl

theorem execAccesses_call {a : Byte} {p : Fin 8} (ha : Names a p) (s : State) :
    execAccesses (.call a) s = [.write (s.reg 7 - 1) s.returnAddress] := by
  rw [execAccesses, onReg_of_names ha, State.decSp_sp, aluDec_eq_sub_one]
  rfl

theorem execAccesses_ret (s : State) : execAccesses .ret s = [.read (s.reg 7) (s.mem.read (s.reg 7).toNat)] := rfl

theorem execAccesses_eq_nil {i : Instr} (h : i.mnemonic ∉ [.ld, .st, .push, .pop, .call, .ret]) (s : State) :
    execAccesses i s = [] := by
  cases i with
  | ld | st | push | pop | call | ret => simp [Instr.mnemonic] at h
  | _ => rfl

/-- Settles O30: the three fetch reads, then the instruction's row of the table. -/
theorem busAccessesFollowTheTable : Obligations.BusAccessesFollowTheTable := by
  intro s i hr hi
  refine ⟨execAccesses i s, ?_, length_execAccesses_le_one i s, ?_, ?_, ?_, ?_, ?_, ?_, fun h => execAccesses_eq_nil h s⟩
  · rw [busAccesses_of_ok hr hi, fetchAccesses_of_le (pc_le_of_fetchInstr hi)]
  · rintro a b p q rfl ha hb
    exact execAccesses_ld ha hb s
  · rintro a b p q rfl ha hb
    exact execAccesses_st ha hb s
  · rintro a p rfl ha
    exact ⟨_, execAccesses_push ha s⟩
  · rintro a p rfl ha
    exact execAccesses_pop ha s
  · rintro a p rfl ha
    exact ⟨_, execAccesses_call ha s⟩
  · rintro rfl
    exact execAccesses_ret s

/-! ### A byte stored over the next opcode -/

/-- At 253 or below, what the three bytes at pc decode to is what the step fetches (R91, R93). -/
theorem fetchInstr_of_decode {s : State} (hp : s.pc.toNat ≤ 253) {i : Instr}
    (h : decode s.cfg (s.byteAt 0) (s.byteAt 1) (s.byteAt 2) = .ok i) : fetchInstr s = .ok i := by
  rw [fetchInstr_of_le hp, decodeLatches]
  simp only [State.byteAt, Nat.add_zero] at h
  simp only [h]

/-- Settles O31: the ST completes at pc + 3, where the fetch sees the stored byte and two bytes it left alone. -/
theorem storedOpcodeRunsNext : Obligations.StoredOpcodeRunsNext := by
  intro s a b p q hr hlegal hp hst ha hb haddr
  have hstep := (step_of_ok hr hst).trans (exec_st ha hb s)
  have hpc : (s.nextPc .st).toNat = s.pc.toNat + 3 := by
    rw [nextPc_toNat hlegal (by omega), Config.lenOf_of_fixed hlegal rfl]
    rfl
  refine ⟨_, hstep, hpc, fun i hi => ?_⟩
  refine step_of_ok (s := (s.store (s.reg p) (s.reg q)).advance .st) hr (fetchInstr_of_decode (hpc.trans_le hp) ?_)
  have hbytes : ∀ k, k ≠ 0 → (s.mem.write (s.pc.toNat + 3) (s.reg q)).read (s.pc.toNat + 3 + k) = s.byteAt (3 + k) :=
    fun k hk => by rw [Memory.read_write_ne _ _ (by omega), Nat.add_assoc]
  simpa [State.byteAt, hpc, haddr, hbytes] using hi

/-! ### What the host must not do -/

theorem hostStart_of_running {s : State} (hr : s.run = .running) : hostStart s = .refused .reentrantStart := by
  simp [hostStart, hr]

theorem hostRead_of_running {s : State} (hr : s.run = .running) (addr : Byte) :
    hostRead addr s = .error .hostReadWhileRunning := if_pos hr

theorem hostRead_of_not_running {s : State} (hr : s.run ≠ .running) (addr : Byte) : hostRead addr s = .ok (s.load addr) :=
  if_neg hr

theorem hostLoad_of_not_idle {s : State} (hr : s.run ≠ .idle) (image : List Byte) :
    hostLoad image s = .refused .hostWriteNotIdle := if_neg hr

theorem hostWrite_of_not_idle {s : State} (hr : s.run ≠ .idle) (addr v : Byte) :
    hostWrite addr v s = .refused .hostWriteNotIdle := if_neg hr

/-- Settles O11: each host action tests the run state first. -/
theorem hostViolationsAreRefused : Obligations.HostViolationsAreRefused :=
  fun _ image addr v =>
    ⟨fun hr => ⟨hostStart_of_running hr, hostRead_of_running hr addr⟩,
      fun hr => ⟨hostLoad_of_not_idle hr image, hostWrite_of_not_idle hr addr v⟩,
      fun hr => hostRead_of_not_running hr addr⟩

end Sys2Proof.Machine
end

section
/-! SUPPORT. The decoder and the encoder read one map in two directions (R77 to R81, R86), and the size of the admitted set and
the lengths that a legal map fixes (R70, R74, R79, R80). -/

namespace Sys2Proof.Machine

open Sys2Proof

/-! ### What the decoder answers -/

/-- The byte of an admitted mnemonic decodes to that mnemonic, with whatever operand bytes follow (R77). -/
theorem decode_byteOf {cfg : Config} (hl : cfg.opcodes.legal = true) {k : Mnemonic} (hk : cfg.admits k = true) (a b : Byte) :
    decode cfg (cfg.opcodes.byteOf k) a b = .ok (instrOf k a b) := by
  simp [decode, OpcodeMap.mnemonicOf_byteOf hl, hk]

/-- All that the decoder can answer: an admitted mnemonic's instruction, or UnknownOpcode of a byte that no admitted
mnemonic has. -/
theorem decode_cases {cfg : Config} (hl : cfg.opcodes.legal = true) (op a b : Byte) :
    (∃ k, cfg.admits k = true ∧ cfg.opcodes.byteOf k = op ∧ decode cfg op a b = .ok (instrOf k a b)) ∨
      ((∀ k, cfg.admits k = true → cfg.opcodes.byteOf k ≠ op) ∧ decode cfg op a b = .error (.unknownOpcode op)) := by
  by_cases h : ∃ k, cfg.admits k = true ∧ cfg.opcodes.byteOf k = op
  · obtain ⟨k, hk, rfl⟩ := h
    exact .inl ⟨k, hk, rfl, decode_byteOf hl hk a b⟩
  · have hne : ∀ k, cfg.admits k = true → cfg.opcodes.byteOf k ≠ op := fun k hk e => h ⟨k, hk, e⟩
    refine .inr ⟨hne, ?_⟩
    rw [decode]
    cases e : cfg.opcodes.mnemonicOf op with
    | none => rfl
    | some k => exact if_neg fun hk => hne k hk (OpcodeMap.byteOf_of_mnemonicOf e)

/-- Settles O3: each clause is one of the two answers of `decode_cases`. -/
theorem decodesExactlyTheAdmittedSet : Obligations.DecodesExactlyTheAdmittedSet := by
  intro cfg op a b hl
  refine ⟨fun i hi => ?_, fun k hk hop => ?_, fun hne => ?_⟩
  · rcases decode_cases hl op a b with ⟨k, hk, hop, e⟩ | ⟨_, e⟩
    · obtain rfl : instrOf k a b = i := by simpa [e] using hi
      exact ⟨by simpa [Instr.WellFormed] using hk, by simpa [opcodeOf] using hop, Instr.operands_instrOf k a b⟩
    · simp [e] at hi
  · exact ⟨instrOf k a b, hop ▸ decode_byteOf hl hk a b, Instr.mnemonic_instrOf k a b⟩
  · rcases decode_cases hl op a b with ⟨k, hk, hop, _⟩ | ⟨_, e⟩
    · exact absurd hop (hne k hk)
    · exact e

/-! ### The encoder -/

/-- An instruction is its mnemonic with its operand bytes, whatever stands after them. -/
theorem instrOf_operands (i : Instr) (rest : List Byte) :
    instrOf i.mnemonic ((i.operands ++ rest).getD 0 0) ((i.operands ++ rest).getD 1 0) = i := by
  cases i <;> rfl

/-- An admitted instruction's opcode byte and operand bytes decode to it, whatever stands after them. -/
theorem decodeBytes_opcodeOf {cfg : Config} (hl : cfg.opcodes.legal = true) {i : Instr} (hi : i.WellFormed cfg)
    (rest : List Byte) : decodeBytes cfg (opcodeOf cfg i :: (i.operands ++ rest)) = .ok i :=
  (decode_byteOf hl hi _ _).trans (congrArg _ (instrOf_operands i rest))

/-- The default map's bytes give each mnemonic its format's length (R74, R78). -/
theorem lenOf_of_ls8 {cfg : Config} (h : cfg.opcodes = .ls8) (k : Mnemonic) : cfg.lenOf k = k.format.operandCount + 1 := by
  rw [Config.lenOf, h]
  exact Laws.EncodedLength.lengthOf_byteOf k

/-- Under the default map the encoder emits the opcode byte and as many operand bytes as the format has. -/
theorem encode_of_ls8 {cfg : Config} (h : cfg.opcodes = .ls8) (i : Instr) :
    encode cfg i = opcodeOf cfg i :: i.operands.take i.mnemonic.format.operandCount := by
  rw [encode, lenOf_of_ls8 h, List.take_succ_cons]
  cases i <;> rfl

/-- Every instruction but NOT carries the operand bytes of its format and no more (R71, R76). -/
theorem take_operands {i : Instr} (h : i.mnemonic ≠ .not) : i.operands.take i.mnemonic.format.operandCount = i.operands := by
  cases i with
  | not a b => exact absurd rfl h
  | _ => rfl

/-- Settles O2: `decodeBytes_opcodeOf`, which the encoder's bytes under the default map are a case of. -/
theorem decodeInvertsEncode : Obligations.DecodeInvertsEncode := by
  intro cfg i rest hl hi
  refine ⟨decodeBytes_opcodeOf hl hi rest, fun h hnot => ?_, ?_⟩
  · rw [encode_of_ls8 h, take_operands hnot]
    exact decodeBytes_opcodeOf hl hi rest
  · rintro h a b rfl
    rw [encode_of_ls8 h]
    exact decodeBytes_opcodeOf hl hi rest

/-! ### The admitted set -/

/-- R78's table lists no mnemonic twice. -/
theorem nodup_mnemonics : Mnemonic.all.Nodup := by decide

/-- A byte is an admitted opcode when an admitted mnemonic has it (R80). -/
theorem admittedOpcode_iff {cfg : Config} (hl : cfg.opcodes.legal = true) {op : Byte} :
    admittedOpcode cfg op = true ↔ ∃ k, cfg.admits k = true ∧ cfg.opcodes.byteOf k = op := by
  refine ⟨fun h => ?_, ?_⟩
  · cases e : cfg.opcodes.mnemonicOf op with
    | none => simp [admittedOpcode, e] at h
    | some k => exact ⟨k, by simpa [admittedOpcode, e] using h, OpcodeMap.byteOf_of_mnemonicOf e⟩
  · rintro ⟨k, hk, rfl⟩
    simp [admittedOpcode, OpcodeMap.mnemonicOf_byteOf hl, hk]

/-- INC and DEC are the two mnemonics of the table that are admitted only by ADMIT_INC_DEC (R80). -/
theorem length_filter_admits (cfg : Config) :
    (Mnemonic.all.filter cfg.admits).length = if cfg.admitIncDec then 32 else 30 := by
  obtain ⟨_, _, admitIncDec, _, _⟩ := cfg
  cases admitIncDec <;> rfl

/-- The values of the admitted bytes are those of the admitted mnemonics' bytes. -/
theorem mem_admitted_values {cfg : Config} (hl : cfg.opcodes.legal = true) (n : Nat) :
    n ∈ (List.range 256).filter (fun n => admittedOpcode cfg (BitVec.ofNat 8 n)) ↔
      n ∈ (Mnemonic.all.filter cfg.admits).map fun k => (cfg.opcodes.byteOf k).toNat := by
  simp only [List.mem_filter, List.mem_range, admittedOpcode_iff hl, List.mem_map, Mnemonic.mem_all, true_and]
  constructor
  · rintro ⟨hn, k, hk, e⟩
    exact ⟨k, hk, by rw [e, BitVec.toNat_ofNat, Nat.mod_eq_of_lt hn]⟩
  · rintro ⟨k, hk, rfl⟩
    exact ⟨(cfg.opcodes.byteOf k).isLt, k, hk, by simp⟩

/-- Settles O4: the two lists of `mem_admitted_values` repeat nothing, so they are of one length. -/
theorem admittedSetSize : Obligations.AdmittedSetSize := by
  intro cfg hl
  have hinj : Function.Injective fun k => (cfg.opcodes.byteOf k).toNat :=
    fun _ _ e => OpcodeMap.byteOf_injective hl (BitVec.eq_of_toNat_eq e)
  have hperm := (List.perm_ext_iff_of_nodup (List.nodup_range.filter _) ((nodup_mnemonics.filter _).map hinj)).2
    (mem_admitted_values hl)
  rw [hperm.length_eq, List.length_map, length_filter_admits]

/-! ### Lengths -/

/-- Settles O5: bits 7:6 are the byte divided by 64, and the rest are the laws of `Config.lenOf`. -/
theorem lengthsFollowTheFormats : Obligations.LengthsFollowTheFormats := by
  intro cfg k hl
  refine ⟨?_, cfg.lenOf_pos k, Config.lenOf_le_three hl k, ?_⟩
  · rw [Config.lenOf_eq, BitVec.toNat_ushiftRight, Nat.shiftRight_eq_div_pow]
  · rintro (hk | h)
    · exact Config.lenOf_of_fixed hl hk
    · exact lenOf_of_ls8 h k

/-! ### Fixed words -/

/-- Settles O1: each conjunct is one decoding of given bytes. -/
theorem decodesWordsOfTheOpcodeMap : Obligations.DecodesWordsOfTheOpcodeMap := by
  unfold Obligations.DecodesWordsOfTheOpcodeMap
  decide

end Sys2Proof.Machine
end

section
/-! SUPPORT. The image text (R87): how it falls into lines, what a line holds, and how one bad line rejects the text (D21). -/

namespace Sys2Proof.Machine

open Sys2Proof

/-! ### Lines -/

/-- The piece before the first separator is split off. -/
theorem splitText_append_sep {sep : Char} {l : List Char} (h : sep ∉ l) (cs : List Char) :
    splitText sep (l ++ sep :: cs) = l :: splitText sep cs := by
  induction l with
  | nil => exact if_pos rfl
  | cons c l ih =>
    obtain ⟨hc, hl⟩ := not_or.1 (mt List.mem_cons.2 h)
    rw [List.cons_append, splitText, if_neg (Ne.symm hc), ih hl]

/-- A text without a separator is one piece. -/
theorem splitText_of_not_mem {sep : Char} {l : List Char} (h : sep ∉ l) : splitText sep l = [l] := by
  induction l with
  | nil => rfl
  | cons c l ih =>
    obtain ⟨hc, hl⟩ := not_or.1 (mt List.mem_cons.2 h)
    rw [splitText, if_neg (Ne.symm hc), ih hl]

/-- Splitting undoes joining, on one or more pieces that hold no separator. -/
theorem splitText_intercalate {sep : Char} :
    ∀ {ls : List (List Char)}, ls ≠ [] → (∀ l ∈ ls, sep ∉ l) → splitText sep ([sep].intercalate ls) = ls
  | [], hne, _ => absurd rfl hne
  | [l], _, h => by simpa [List.intercalate] using splitText_of_not_mem (h l List.mem_cons_self)
  | l :: m :: ls, _, h => by
    obtain ⟨hl, hls⟩ := List.forall_mem_cons.1 h
    have e : [sep].intercalate (l :: m :: ls) = l ++ sep :: [sep].intercalate (m :: ls) := by simp [List.intercalate]
    rw [e, splitText_append_sep hl, splitText_intercalate (List.cons_ne_nil m ls) hls]

/-! ### The content of a line -/

theorem rdropWhile_of_no_blank {cs : List Char} (h : ∀ c ∈ cs, isBlank c = false) : cs.rdropWhile isBlank = cs :=
  List.rdropWhile_eq_self_iff.2 fun hne => by simp [h _ (List.getLast_mem hne)]

/-- A text without white space keeps all its characters. -/
theorem stripBlanks_of_no_blank {cs : List Char} (h : ∀ c ∈ cs, isBlank c = false) : stripBlanks cs = cs := by
  have hfront : cs.dropWhile isBlank = cs := List.dropWhile_eq_self_iff.2 fun _ => by simp [h]
  rw [stripBlanks, hfront]
  exact rdropWhile_of_no_blank h

/-- The space before an inline comment is stripped from a text without white space. -/
theorem stripBlanks_append_space {cs : List Char} (h : ∀ c ∈ cs, isBlank c = false) : stripBlanks (cs ++ [' ']) = cs := by
  cases cs with
  | nil => rfl
  | cons c cs =>
    have hfront : (c :: cs ++ [' ']).dropWhile isBlank = c :: cs ++ [' '] :=
      List.dropWhile_cons_of_neg (by simp [h c List.mem_cons_self])
    rw [stripBlanks, hfront]
    exact (List.rdropWhile_concat_pos _ _ _ rfl).trans (rdropWhile_of_no_blank h)

/-- What is no white space stays. -/
theorem mem_dropWhile_of_not {p : Char → Bool} {c : Char} {cs : List Char} (h : c ∈ cs) (hc : p c = false) :
    c ∈ cs.dropWhile p := by
  rw [← List.takeWhile_append_dropWhile (p := p) (l := cs), List.mem_append] at h
  exact h.resolve_left fun ht => by simp [List.mem_takeWhile_imp ht] at hc

theorem mem_stripBlanks {c : Char} {cs : List Char} (h : c ∈ cs) (hc : isBlank c = false) : c ∈ stripBlanks cs :=
  List.mem_reverse.2 (mem_dropWhile_of_not (List.mem_reverse.2 (mem_dropWhile_of_not h hc)) hc)

/-- A line's content is what stands before its comment, stripped. -/
theorem lineContent_append {marker : Char} {content comment : List Char} (h : marker ∉ content)
    (hc : ∀ c ∈ comment.head?, c = marker) : lineContent marker (content ++ comment) = stripBlanks content := by
  rw [lineContent, List.takeWhile_append_of_pos fun c hm => by simpa using ne_of_mem_of_not_mem hm h]
  cases comment with
  | nil => simp
  | cons d ds => simp [hc d rfl]

/-! ### Base-2 numbers -/

/-- The base-2 digits are '0' and '1'. -/
theorem digitValue_lt_two {c : Char} {d : Nat} (h : digitValue c = some d) (hd : d < 2) : c = '0' ∨ c = '1' := by
  obtain ⟨before, after, e, -⟩ := List.lookup_eq_some_iff.1 h
  have htable : ∀ p ∈ before ++ (c, d) :: after, p.2 < 2 → p.1 = '0' ∨ p.1 = '1' := e ▸ by decide
  exact htable (c, d) (by simp) hd

/-- Reading one base-2 digit. -/
theorem numberFrom_cons_digit {c : Char} (h : c = '0' ∨ c = '1') (n : Nat) (cs : List Char) :
    numberFrom 2 n (c :: cs) = numberFrom 2 (2 * n + if c = '1' then 1 else 0) cs := by
  rcases h with rfl | rfl <;> rfl

/-- Base-2 digits read as the number that doubling and adding gives. -/
theorem numberFrom_eq_foldl {cs : List Char} (h : ∀ c ∈ cs, c = '0' ∨ c = '1') (n : Nat) :
    numberFrom 2 n cs = some (cs.foldl (fun n c => 2 * n + if c = '1' then 1 else 0) n) := by
  induction cs generalizing n with
  | nil => rfl
  | cons c cs ih =>
    obtain ⟨hc, hcs⟩ := List.forall_mem_cons.1 h
    rw [numberFrom_cons_digit hc, ih hcs, List.foldl_cons]

/-- Any other character makes a text no base-2 number. -/
theorem numberFrom_eq_none {c : Char} {cs : List Char} (h : c ∈ cs) (h0 : c ≠ '0') (h1 : c ≠ '1') (n : Nat) :
    numberFrom 2 n cs = none := by
  induction cs generalizing n with
  | nil => cases h
  | cons d ds ih =>
    rw [numberFrom]
    cases e : digitValue d with
    | none => rfl
    | some v =>
      rcases List.mem_cons.1 h with rfl | h
      · exact if_neg fun hv => (digitValue_lt_two e hv).elim h0 h1
      · simp only [ih h, ite_self]

/-- The bits of a number below a position, written as digits, complete the number above the position. -/
theorem numberFrom_bits (n w : Nat) :
    numberFrom 2 (n / 2 ^ w) ((List.range w).reverse.map fun k => if n.testBit k then '1' else '0') = some n := by
  induction w with
  | zero => simp [numberFrom]
  | succ w ih =>
    have hdigit : 2 * (n / 2 ^ (w + 1)) + (n.testBit w).toNat = n / 2 ^ w := by
      rw [Nat.toNat_testBit, Nat.pow_succ, ← Nat.div_div_eq_div_mul, Nat.div_add_mod]
    rw [List.range_succ, List.reverse_append, List.reverse_singleton, List.singleton_append, List.map_cons,
      numberFrom_cons_digit (by split <;> simp), ← ih, ← hdigit]
    cases n.testBit w <;> rfl

/-- The eight digits of a byte are read back (R87). -/
theorem parseByte_byteDigits (b : Byte) : parseByte 2 (byteDigits b) = some b := by
  have hn : numberFrom 2 0 (byteDigits b) = some b.toNat := by
    have := numberFrom_bits b.toNat 8
    rwa [Nat.div_eq_of_lt b.isLt] at this
  rw [parseByte, if_neg (by simp [byteDigits]), hn]
  simp [b.isLt]

/-! ### The lines of a text -/

/-- A line with nothing before its comment is skipped (R87). -/
theorem parseLines_cons_of_empty {l : List Char} (h : lineContent '#' l = []) (ls : List (List Char)) :
    parseLines (l :: ls) = parseLines ls := by
  rw [parseLines, h]

/-- A line whose content is a base-2 byte adds that byte. -/
theorem parseLines_cons_of_byte {l : List Char} {b : Byte} (h : parseByte 2 (lineContent '#' l) = some b)
    (ls : List (List Char)) : parseLines (l :: ls) = (parseLines ls).map (b :: ·) := by
  rw [parseLines]
  cases e : lineContent '#' l with
  | nil => simp [e, parseByte] at h
  | cons c cs =>
    rw [e] at h
    simp only [h]
    cases parseLines ls <;> rfl

/-- The line has content that is no base-2 byte (D21). -/
def BadLine (l : List Char) : Prop := lineContent '#' l ≠ [] ∧ parseByte 2 (lineContent '#' l) = none

theorem parseLines_cons_of_bad {l : List Char} (h : BadLine l) (ls : List (List Char)) :
    parseLines (l :: ls) = .error .malformedInstruction := by
  obtain ⟨hne, hbad⟩ := h
  rw [parseLines]
  cases e : lineContent '#' l with
  | nil => exact absurd e hne
  | cons c cs =>
    rw [e] at hbad
    simp only [hbad]

/-- One bad line, wherever it stands, makes the whole of the lines MalformedInstruction (D21). -/
theorem parseLines_of_mem_bad {l : List Char} (hl : BadLine l) {ls : List (List Char)} (h : l ∈ ls) :
    parseLines ls = .error .malformedInstruction := by
  induction ls with
  | nil => cases h
  | cons m ms ih =>
    rcases List.mem_cons.1 h with rfl | h
    · exact parseLines_cons_of_bad hl ms
    · by_cases he : lineContent '#' m = []
      · rw [parseLines_cons_of_empty he, ih h]
      · cases hb : parseByte 2 (lineContent '#' m) with
        | none => exact parseLines_cons_of_bad ⟨he, hb⟩ ms
        | some b =>
          rw [parseLines_cons_of_byte hb, ih h]
          rfl

/-! ### An image is read back -/

/-- The eight characters of a byte are base-2 digits. -/
theorem mem_byteDigits {b : Byte} {c : Char} (h : c ∈ byteDigits b) : c = '0' ∨ c = '1' := by
  obtain ⟨k, -, rfl⟩ := List.mem_map.1 h
  split
  · exact .inr rfl
  · exact .inl rfl

/-- A base-2 digit is no white space. -/
theorem isBlank_of_digit {c : Char} (h : c = '0' ∨ c = '1') : isBlank c = false := by
  rcases h with rfl | rfl <;> rfl

/-- A character that is no base-2 digit stands in no byte's digits. -/
theorem not_mem_byteDigits {c : Char} (h0 : c ≠ '0') (h1 : c ≠ '1') (b : Byte) : c ∉ byteDigits b :=
  fun h => (mem_byteDigits h).elim h0 h1

/-- A byte's line, with a space and an inline comment, has the byte's digits as its content. -/
theorem lineContent_byteDigits (b : Byte) (comment : List Char) :
    lineContent '#' (byteDigits b ++ [' ', '#'] ++ comment) = byteDigits b := by
  have hmarker : '#' ∉ byteDigits b ++ [' '] := by simp [not_mem_byteDigits]
  calc lineContent '#' (byteDigits b ++ [' ', '#'] ++ comment)
    _ = lineContent '#' ((byteDigits b ++ [' ']) ++ '#' :: comment) := by simp
    _ = stripBlanks (byteDigits b ++ [' ']) := lineContent_append hmarker (by simp)
    _ = byteDigits b := stripBlanks_append_space fun _ hc => isBlank_of_digit (mem_byteDigits hc)

/-- A byte's line and a comment-only line, before any text, add the byte to what the text holds (R87). -/
theorem parseImage_byte_line (b : Byte) {comment : List Char} (h : '\n' ∉ comment) (text : List Char) :
    parseImage ((byteDigits b ++ [' ', '#'] ++ comment ++ ['\n', '#'] ++ comment ++ ['\n']) ++ text) =
      (parseImage text).map (b :: ·) := by
  have hline : '\n' ∉ byteDigits b ++ [' ', '#'] ++ comment := by simp [not_mem_byteDigits, h]
  have hcomment : '\n' ∉ '#' :: comment := by simp [h]
  have e : (byteDigits b ++ [' ', '#'] ++ comment ++ ['\n', '#'] ++ comment ++ ['\n']) ++ text =
      (byteDigits b ++ [' ', '#'] ++ comment) ++ '\n' :: (('#' :: comment) ++ '\n' :: text) := by simp
  have hb : parseByte 2 (lineContent '#' (byteDigits b ++ [' ', '#'] ++ comment)) = some b := by
    rw [lineContent_byteDigits, parseByte_byteDigits]
  rw [parseImage, e, splitText_append_sep hline, splitText_append_sep hcomment, parseLines_cons_of_byte hb,
    parseLines_cons_of_empty rfl]
  rfl

/-! ### A bad line rejects the text -/

/-- A character that is neither a base-2 digit nor white space makes a line bad. -/
theorem badLine_of_bad_character {content comment : List Char} (h : '#' ∉ content) (hc : ∀ c ∈ comment.head?, c = '#')
    {c : Char} (hmem : c ∈ content) (hbad : c ∉ ['0', '1', ' ', '\t', '\r']) : BadLine (content ++ comment) := by
  simp only [List.mem_cons, List.not_mem_nil, or_false, not_or] at hbad
  obtain ⟨h0, h1, hspace, htab, hcr⟩ := hbad
  have hstays : c ∈ stripBlanks content := mem_stripBlanks hmem (by simp [isBlank, hspace, htab, hcr])
  have hne := List.ne_nil_of_mem hstays
  rw [BadLine, lineContent_append h hc]
  exact ⟨hne, by rw [parseByte, if_neg hne, numberFrom_eq_none hstays h0 h1]⟩

/-- Base-2 digits with a value above 255 make a line bad. -/
theorem badLine_of_above_255 {content comment : List Char} (h : '#' ∉ content) (hc : ∀ c ∈ comment.head?, c = '#')
    (hdigits : ∀ c ∈ content, c = '0' ∨ c = '1')
    (hvalue : 255 < content.foldl (fun n c => 2 * n + if c = '1' then 1 else 0) 0) : BadLine (content ++ comment) := by
  have hne : content ≠ [] := by
    rintro rfl
    exact absurd hvalue (by decide)
  rw [BadLine, lineContent_append h hc, stripBlanks_of_no_blank fun c hm => isBlank_of_digit (hdigits c hm)]
  refine ⟨hne, ?_⟩
  rw [parseByte, if_neg hne, numberFrom_eq_foldl hdigits]
  exact if_neg (by omega)

/-- Settles O10: the image by induction on its bytes (`parseImage_byte_line`), the rejection by `parseLines_of_mem_bad`. -/
theorem imageTextIsReadBack : Obligations.ImageTextIsReadBack := by
  refine ⟨fun lines h => ?_, fun lines content comment hlines hmem hmarker hcomment hbad => ?_⟩
  · induction lines with
    | nil => rfl
    | cons l ls ih =>
      obtain ⟨hl, hls⟩ := List.forall_mem_cons.1 h
      rw [List.flatMap_cons, parseImage_byte_line l.1 hl, ih hls]
      rfl
  · rw [parseImage, splitText_intercalate (List.ne_nil_of_mem hmem) hlines]
    refine parseLines_of_mem_bad ?_ hmem
    rcases hbad with ⟨c, hc, hbad⟩ | ⟨hdigits, hvalue⟩
    · exact badLine_of_bad_character hmarker hcomment hc hbad
    · exact badLine_of_above_255 hmarker hcomment hdigits hvalue

end Sys2Proof.Machine
end

section
/-! SUPPORT. The fetch-decode-execute cycle: which instruction a step runs, and the invariant along a run of steps. -/

namespace Sys2Proof.Machine

open Sys2Proof

/-- Settles O23, by induction on the number of steps: the first step answers, and its state meets the invariant again. -/
theorem everyRunKeepsTheInvariant : Obligations.EveryRunKeepsTheInvariant := by
  intro n
  induction n with
  | zero => exact fun s hs => ⟨s, .zero s, hs⟩
  | succ n ih =>
    intro s hs
    obtain ⟨u, hstep⟩ := (everyStepAnswersANextState s).1
    obtain ⟨t, hrun, ht⟩ := ih u (stepKeepsTheInvariant s u hs hstep)
    exact ⟨t, .succ hstep hrun, ht⟩

/-- Settles O12: what the three bytes at pc decode to is what the step fetches, and it executes that. -/
theorem stepRunsTheDecodedInstruction : Obligations.StepRunsTheDecodedInstruction :=
  fun _ _ hr hp hdecode => step_of_ok hr (fetchInstr_of_decode hp hdecode)

end Sys2Proof.Machine
end

section
/-! SUPPORT. The data transfer rules LDI, LD and ST (R110 to R112), with what the instruction rules share: the Encoding line, the
default advance, and the frames of a register write and of a store. -/

namespace Sys2Proof.Machine

open Sys2Proof

/-! ### What the instruction rules share -/

/-- The Encoding line of every rule: the default map's opcode byte and the operand bytes of the format (R71, R78). -/
theorem encodesAs (i : Instr) :
    EncodesAs i (OpcodeMap.ls8.byteOf i.mnemonic :: i.operands.take i.mnemonic.format.operandCount) := by
  intro cfg h
  rw [encode_of_ls8 h, opcodeOf, h]

/-- The default advance goes by the length of the format, where R79 fixes it, and does not wrap (R27, R96). -/
theorem Ready.advanced {s t : State} (hs : Ready s) {k : Mnemonic} (hk : k.countIsFixed = true) (ht : t.pc = s.nextPc k) :
    Advanced (k.format.operandCount + 1) s t := by
  obtain ⟨hlegal, hp⟩ := hs
  rw [Advanced, ht, nextPc_toNat hlegal hp, Config.lenOf_of_fixed hlegal hk]

/-- A register write and the default advance: the register holds the value, and nothing else changes. -/
theorem setReg_advance_frame {s : State} (hs : Ready s) (i : Fin 8) (v : Byte) {k : Mnemonic} (hk : k.countIsFixed = true) :
    let t := (s.setReg i v).advance k
    t.reg i = v ∧ SameRegs [i] s t ∧ SameMem s t ∧ SameFlags s t ∧ SameRun s t ∧ t.out = s.out ∧
      Advanced (k.format.operandCount + 1) s t :=
  ⟨State.setReg_reg_self s i v, fun _ hr => State.setReg_reg_ne s v (List.ne_of_not_mem_cons hr), fun _ => rfl,
    ⟨rfl, rfl, rfl⟩, ⟨rfl, rfl⟩, rfl, hs.advanced hk rfl⟩

/-- A store and the default advance: the addressed cell holds the byte, and nothing else changes. -/
theorem store_advance_frame {s : State} (hs : Ready s) (addr v : Byte) {k : Mnemonic} (hk : k.countIsFixed = true) :
    let t := (s.store addr v).advance k
    t.mem.read addr.toNat = v ∧ SameMemBut addr s t ∧ SameRegs [] s t ∧ SameFlags s t ∧ SameRun s t ∧ t.out = s.out ∧
      Advanced (k.format.operandCount + 1) s t :=
  ⟨Memory.read_write_self s.mem addr.toNat v, fun _ ha => Memory.read_write_ne s.mem v ha, fun _ _ => rfl,
    ⟨rfl, rfl, rfl⟩, ⟨rfl, rfl⟩, rfl, hs.advanced hk rfl⟩

/-- A meaning that validates operand_a alone raises on a bad one (R11). -/
theorem RaisesRegister.of_withReg {i : Instr} {s : State} {a : Byte} {k : Fin 8 → Result} (h : exec i s = withReg a s k)
    (ha : 8 ≤ a.toNat) : RaisesRegister i s a := h.trans (withReg_of_ge ha s k)

/-- A meaning that validates both operands raises on a bad operand_a, whatever operand_b is (D11). -/
theorem RaisesRegister.of_withRegs_left {i : Instr} {s : State} {a b : Byte} {k : Fin 8 → Fin 8 → Result}
    (h : exec i s = withRegs a b s k) (ha : 8 ≤ a.toNat) : RaisesRegister i s a := h.trans (withRegs_of_ge_left ha b s k)

/-- A meaning that validates both operands raises on a bad operand_b after a good operand_a (D11). -/
theorem RaisesRegister.of_withRegs_right {i : Instr} {s : State} {a b : Byte} {k : Fin 8 → Fin 8 → Result}
    (h : exec i s = withRegs a b s k) (ha : a.toNat < 8) (hb : 8 ≤ b.toNat) : RaisesRegister i s b :=
  h.trans (withRegs_of_ge_right ha hb s k)

/-! ### LDI, LD and ST -/

/-- Settles O36: LDI writes one register (`setReg_advance_frame`), or RegIdx raises. -/
theorem loadImmediateRule : Obligations.LoadImmediateRule := by
  refine ⟨fun a b => encodesAs (.ldi a b), fun s a b hs => ⟨fun i hi => ?_, fun ha => ?_⟩⟩
  · exact ⟨_, exec_ldi hi b s, setReg_advance_frame hs i b rfl⟩
  · exact .of_withReg (by rw [exec, execLdi]) ha

/-- Settles O37: LD writes one register with the byte loaded; operand_a is checked before operand_b (D11). -/
theorem loadRule : Obligations.LoadRule := by
  refine ⟨fun a b => encodesAs (.ld a b), fun s a b hs => ⟨fun i j hi hj => ?_, fun ha => ?_, fun ha hb => ?_⟩⟩
  · exact ⟨_, exec_ld hi hj s, setReg_advance_frame hs i (s.load (s.reg j)) rfl⟩
  · exact .of_withRegs_left (by rw [exec, execLd]) ha
  · exact .of_withRegs_right (by rw [exec, execLd]) ha hb

/-- Settles O38: ST stores one byte (`store_advance_frame`); operand_a is checked before operand_b (D11). -/
theorem storeRule : Obligations.StoreRule := by
  refine ⟨fun a b => encodesAs (.st a b), fun s a b hs => ⟨fun i j hi hj => ?_, fun ha => ?_, fun ha hb => ?_⟩⟩
  · exact ⟨_, exec_st hi hj s, store_advance_frame hs (s.reg i) (s.reg j) rfl⟩
  · exact .of_withRegs_left (by rw [exec, execSt]) ha
  · exact .of_withRegs_right (by rw [exec, execSt]) ha hb

end Sys2Proof.Machine
end

section
/-! SUPPORT. The output rules PRN and PRA (R120, R121): the strobe of an emitted event and the frame of an emission. -/

namespace Sys2Proof.Machine

open Sys2Proof

/-- One event appended to the output is the one strobed (R38). -/
theorem outStrobe_of_append {s t : State} {e : OutEvent} (h : t.out = s.out ++ [e]) : outStrobe s t = some e := by
  rw [outStrobe, h, List.drop_left, List.head?_singleton]

/-- An emission and the default advance: one event is appended and strobed, and nothing else changes. -/
theorem emit_advance_frame {s : State} (hs : Ready s) (kind : OutKind) (v : Byte) {k : Mnemonic} (hk : k.countIsFixed = true) :
    let t := (s.emit kind v).advance k
    t.out = s.out ++ [⟨kind, v⟩] ∧ outStrobe s t = some ⟨kind, v⟩ ∧ SameRegs [] s t ∧ SameMem s t ∧ SameFlags s t ∧
      SameRun s t ∧ Advanced (k.format.operandCount + 1) s t :=
  ⟨rfl, outStrobe_of_append rfl, fun _ _ => rfl, fun _ => rfl, ⟨rfl, rfl, rfl⟩, ⟨rfl, rfl⟩, hs.advanced hk rfl⟩

/-- Settles O39: PRN and PRA emit one event (`emit_advance_frame`), or RegIdx raises before the emission. -/
theorem printRules : Obligations.PrintRules := by
  refine ⟨fun a => encodesAs (.prn a), fun a => encodesAs (.pra a), rfl, rfl,
    fun s a hs => ⟨fun i hi => ⟨?_, ?_⟩, fun ha => ⟨?_, ?_⟩⟩⟩
  · exact ⟨_, exec_prn hi s, emit_advance_frame hs .dec (s.reg i) rfl⟩
  · exact ⟨_, exec_pra hi s, emit_advance_frame hs .chr (s.reg i) rfl⟩
  · exact .of_withReg (by rw [exec, execPrn, emitReg]) ha
  · exact .of_withReg (by rw [exec, execPra, emitReg]) ha

end Sys2Proof.Machine
end

section
/-! SUPPORT. The stack rules PUSH, POP, CALL and RET (R130 to R133) and the two round trips of R135: the shared push of one byte,
the return address, and the fetch fault at a jump target of 254 or 255. -/

namespace Sys2Proof.Machine

open Sys2Proof

/-! ### The push of one byte, SP raised again, and the fault of the next fetch -/

/-- What PUSH and CALL share (R130, R132): SP goes down by 1, then the byte is stored at the new SP. -/
def State.pushByte (s : State) (v : Byte) : State := s.decSp.store s.decSp.sp v

/-- A push: SP is lower by 1 modulo 256, the cell at the new SP holds the byte, and nothing else changes. -/
theorem pushByte_frame (s : State) (v : Byte) :
    let t := s.pushByte v
    (t.reg 7).toNat = ((s.reg 7).toNat + 255) % 256 ∧ t.mem.read (t.reg 7).toNat = v ∧ SameMemBut (t.reg 7) s t ∧
      SameRegs [7] s t ∧ SameFlags s t ∧ SameRun s t ∧ t.out = s.out := by
  have hsp : (s.pushByte v).reg 7 = aluDec (s.reg 7) := State.decSp_sp s
  refine ⟨hsp ▸ aluDec_toNat (s.reg 7), Memory.read_write_self .., fun _ ha => Memory.read_write_ne _ v ha, fun r hr => ?_,
    ⟨rfl, rfl, rfl⟩, ⟨rfl, rfl⟩, rfl⟩
  exact (State.decSp_reg s r).trans (if_neg (List.ne_of_not_mem_cons hr))

theorem exec_push_eq_pushByte {a : Byte} {i : Fin 8} (hi : Names a i) (s : State) :
    exec (.push a) s = .next ((s.pushByte (s.decSp.reg i)).advance .push) := exec_push hi s

theorem exec_call_eq_pushByte {a : Byte} {i : Fin 8} (hi : Names a i) (s : State) :
    exec (.call a) s = .next ((s.pushByte s.returnAddress).jumpTo (s.decSp.reg i)) := exec_call hi s

/-- A register read after SP went down sees the new SP (D13), in the state that pushed any byte. -/
theorem decSp_reg_eq_ite (s : State) (v : Byte) (i : Fin 8) :
    s.decSp.reg i = if i = 7 then (s.pushByte v).reg 7 else s.reg i := by
  rw [State.decSp_reg]
  exact congrArg (fun b => if i = 7 then b else s.reg i) (State.decSp_sp s).symm

/-- POP and RET raise SP by 1 modulo 256; no other register changes (R131, R133). -/
theorem incSp_frame (s : State) : (s.incSp.reg 7).toNat = ((s.reg 7).toNat + 1) % 256 ∧ SameRegs [7] s s.incSp :=
  ⟨(congrArg BitVec.toNat (State.incSp_sp s)).trans (aluInc_toNat _),
    fun r hr => (State.incSp_reg s r).trans (if_neg (List.ne_of_not_mem_cons hr))⟩

/-- The return address fits a byte (R132). -/
theorem Ready.returnAddress_toNat {s : State} (hs : Ready s) : s.returnAddress.toNat = s.pc.toNat + 2 := by
  obtain ⟨hlegal, hp⟩ := hs
  have hlen : s.cfg.lenOf .call = 2 := Config.lenOf_of_fixed hlegal rfl
  rw [State.returnAddress, BitVec.toNat_setWidth, nextPc_toNat hlegal hp, hlen]
  omega

/-- A Running core at a byte pc of 254 or 255 raises OutOfRange(mem, 256) on the next fetch (R91, R100). -/
theorem step_of_byte_pc_ge {s : State} {v : Byte} (hpc : s.pc.toNat = v.toNat) (hr : s.run = .running)
    (hv : 254 ≤ s.pc.toNat) : step s = .next { s with run := .faulted, stop := .fault (.outOfRangeMem 256) } := by
  have hmax : max s.pc.toNat 256 = 256 := Nat.max_eq_right (hpc ▸ Nat.le_of_lt v.isLt)
  have hfetch := fetchInstr_of_gt (s := s) hv
  rw [hmax] at hfetch
  exact step_of_error hr hfetch

/-! ### PUSH, POP, CALL and RET -/

/-- Settles O40: PUSH is the push of the register's byte, read after SP went down, or RegIdx raises. -/
theorem pushRule : Obligations.PushRule := by
  refine ⟨fun a => encodesAs (.push a), fun s a hs => ⟨fun i hi => ?_, fun ha => ?_⟩⟩
  · have hv := decSp_reg_eq_ite s (s.decSp.reg i) i
    obtain ⟨hsp, hcell, hmem, hregs, hflags, hrun, hout⟩ := pushByte_frame s (s.decSp.reg i)
    exact ⟨_, exec_push_eq_pushByte hi s, hsp, hcell.trans hv, hmem, hregs, hflags, hrun, hout, hs.advanced (k := .push) rfl rfl⟩
  · exact .of_withReg (by rw [exec, execPush]) ha

/-- Settles O41: POP writes the register, then SP from the SP read after that write; for R7 both writes are to SP (D13). -/
theorem popRule : Obligations.PopRule := by
  refine ⟨fun a => encodesAs (.pop a), fun s a hs => ⟨fun i hi => ?_, fun ha => ?_⟩⟩
  · obtain ⟨hsp, hregs⟩ := incSp_frame (s.setReg i (s.load s.sp))
    refine ⟨_, exec_pop hi s, fun hne => ⟨?_, ?_⟩, ?_, fun r hr => ?_, fun _ => rfl, ⟨rfl, rfl, rfl⟩, ⟨rfl, rfl⟩, rfl,
      hs.advanced (k := .pop) rfl rfl⟩
    · exact (hregs i (by simpa using hne)).trans (State.setReg_reg_self s i _)
    · exact hsp.trans (by rw [State.setReg_reg_ne s _ hne.symm])
    · rintro rfl
      exact hsp.trans (by rw [State.setReg_reg_self]; rfl)
    · obtain ⟨hri, hr7⟩ : r ≠ i ∧ r ∉ [7] := by simpa using hr
      exact (hregs r hr7).trans (State.setReg_reg_ne s _ hri)
  · exact .of_withReg (by rw [exec, execPop]) ha

/-- Settles O42: CALL is the push of the return address and a jump to the register, read after SP went down. -/
theorem callRule : Obligations.CallRule := by
  refine ⟨fun a => encodesAs (.call a), fun s a hs => ⟨fun i hi => ?_, fun ha => ?_⟩⟩
  · have hpc := jumpTo_pc_toNat (s.pushByte s.returnAddress) (s.decSp.reg i)
    have htarget := congrArg BitVec.toNat (decSp_reg_eq_ite s s.returnAddress i)
    obtain ⟨hsp, hcell, hmem, hregs, hflags, hrun, hout⟩ := pushByte_frame s s.returnAddress
    exact ⟨_, exec_call_eq_pushByte hi s, hsp, (congrArg BitVec.toNat hcell).trans hs.returnAddress_toNat, hmem,
      hpc.trans htarget, hregs, hflags, hrun, hout, step_of_byte_pc_ge hpc⟩
  · exact .of_withReg (by rw [exec, execCall]) ha

/-- Settles O43: RET jumps to the byte at SP and raises SP (`incSp_frame`); it has no operand, so RegIdx cannot raise. -/
theorem returnRule : Obligations.ReturnRule := by
  refine ⟨encodesAs .ret, fun s => ?_⟩
  have hpc := jumpTo_pc_toNat s (s.load s.sp)
  obtain ⟨hsp, hregs⟩ := incSp_frame (s.jumpTo (s.load s.sp))
  exact ⟨_, exec_ret s, hpc, hsp, hregs, fun _ => rfl, ⟨rfl, rfl, rfl⟩, ⟨rfl, rfl⟩, rfl,
    fun hr hge => step_of_byte_pc_ge hpc hr (hpc.symm ▸ hge)⟩

/-! ### The round trips of R135 -/

/-- Lowering SP by 1 and raising it again restores it, the wrap at 0 included (R134). -/
theorem sp_restored {old low new : Byte} (hlow : low.toNat = (old.toNat + 255) % 256)
    (hnew : new.toNat = (low.toNat + 1) % 256) : new = old := by
  have := old.isLt
  apply BitVec.eq_of_toNat_eq
  omega

/-- Settles O44: POP's loaded byte is the one PUSH stored, which for R7 is the lowered SP. -/
theorem pushThenPopRestores : Obligations.PushThenPopRestores := by
  intro s a i hs hp hi
  obtain ⟨t, hpush, hlow, hcell, -, hregs, ⟨hfl, hie, hcfg⟩, ⟨hrun, hstop⟩, hout, hpc⟩ := (pushRule.2 s a hs).1 i hi
  have ht : Ready t := ⟨hcfg ▸ hs.1, by rw [hpc]; exact hp⟩
  obtain ⟨u, hpop, hother, hseven, hregs', -, ⟨hfl', hie', hcfg'⟩, ⟨hrun', hstop'⟩, hout', hpc'⟩ :=
    (popRule.2 t a ht).1 i hi
  have hsp : u.reg 7 = s.reg 7 := by
    by_cases h7 : i = 7
    · exact sp_restored hlow (by rw [hseven h7, hcell, if_pos h7])
    · exact sp_restored hlow (hother h7).2
  have hreg : ∀ r, u.reg r = s.reg r := by
    intro r
    by_cases hr7 : r = 7
    · rw [hr7, hsp]
    by_cases hri : r = i
    · subst hri
      rw [(hother hr7).1, hcell, if_neg hr7]
    · rw [hregs' r (by simp [hri, hr7]), hregs r (by simp [hr7])]
  have hadvanced : u.pc.toNat = s.pc.toNat + 4 := by rw [hpc', hpc]
  exact ⟨t, u, hpush, hpop, fun r _ => hreg r, ⟨hfl'.trans hfl, hie'.trans hie, hcfg'.trans hcfg⟩,
    ⟨hrun'.trans hrun, hstop'.trans hstop⟩, hout'.trans hout, hadvanced⟩

/-- Settles O45: RET loads the return address CALL stored and raises the SP CALL lowered. -/
theorem callThenReturnResumes : Obligations.CallThenReturnResumes := by
  intro s t u a i hs hi hcall husp hucell
  obtain ⟨t', hcall', hlow, hcell, -, -, hregs, -⟩ := (callRule.2 s a hs).1 i hi
  obtain rfl : t' = t := by simpa [hcall'] using hcall
  obtain ⟨v, hret, hpc, hsp, hregs', -⟩ := returnRule.2 u
  exact ⟨v, hret, by rw [hpc, husp, hucell, hcell], sp_restored hlow (husp ▸ hsp), hregs, hregs'⟩

end Sys2Proof.Machine
end

section
/-! SUPPORT. The jump rules: JMP (R150), the conditional jumps (R151 to R157) and what they do after CMP (R158). The six conditional
jumps share one rule, `conditionalJumpRule_of_jumpIf`; after CMP, `compareFlags` decides each condition. -/

namespace Sys2Proof.Machine

open Sys2Proof

/-! ### The two things a jump can do -/

/-- A jump that is taken: pc is the target, and nothing else changes (R95). -/
theorem jumpTo_frame (s : State) (target : Byte) :
    let t := s.jumpTo target
    t.pc.toNat = target.toNat ∧ SameRegs [] s t ∧ SameMem s t ∧ SameFlags s t ∧ SameRun s t ∧ t.out = s.out :=
  ⟨jumpTo_pc_toNat s target, fun _ _ => rfl, fun _ => rfl, ⟨rfl, rfl, rfl⟩, ⟨rfl, rfl⟩, rfl⟩

/-- The default advance alone: only pc changes (R96). -/
theorem advance_frame {s : State} (hs : Ready s) {k : Mnemonic} (hk : k.countIsFixed = true) :
    let t := s.advance k
    Advanced (k.format.operandCount + 1) s t ∧ SameRegs [] s t ∧ SameMem s t ∧ SameFlags s t ∧ SameRun s t ∧ t.out = s.out :=
  ⟨hs.advanced hk rfl, fun _ _ => rfl, fun _ => rfl, ⟨rfl, rfl, rfl⟩, ⟨rfl, rfl⟩, rfl⟩

/-- A conditional jump whose condition holds is RegIdx and the jump (R151). -/
theorem jumpIf_true (k : Mnemonic) (a : Byte) (s : State) :
    jumpIf k true a s = withReg a s fun i => .next (s.jumpTo (s.reg i)) := rfl

/-! ### JMP and the conditional jumps -/

/-- Settles O46: JMP is the jump of `jumpTo_frame`, and a byte target of 254 or 255 is a pc the next fetch faults at. -/
theorem jumpRule : Obligations.JumpRule := by
  refine ⟨fun a => encodesAs (.jmp a), fun s a => ⟨fun i hi => ?_, fun ha => ?_⟩⟩
  · obtain ⟨hpc, hregs, hmem, hflags, hrun, hout⟩ := jumpTo_frame s (s.reg i)
    exact ⟨_, exec_jmp hi s, hpc, hregs, hmem, hflags, hrun, hout, fun hr hge => step_of_byte_pc_ge hpc hr (hpc.symm ▸ hge)⟩
  · exact .of_withReg (by rw [exec, execJmp, takeJump]) ha

/-- An instruction whose meaning is `jumpIf` on a condition of FL keeps the rule of a conditional jump (R151 to R157). -/
theorem conditionalJumpRule_of_jumpIf {mk : Byte → Instr} {op : Byte} {cond : Byte → Bool} {s : State} {k : Mnemonic}
    (hs : Ready s) (hfixed : k.countIsFixed = true) (hformat : k.format = .f1) (hencode : ∀ a, EncodesAs (mk a) [op, a])
    (hexec : ∀ a, exec (mk a) s = jumpIf k (cond s.fl) a s) : ConditionalJumpRule mk op cond s := by
  refine ⟨hencode, fun a => ⟨fun hc i hi => ?_, fun hc ha => ?_, fun hc => ?_⟩⟩
  · exact ⟨_, (hexec a).trans (jumpIf_taken hc hi k s), jumpTo_frame s (s.reg i)⟩
  · exact .of_withReg ((hexec a).trans (by rw [hc, jumpIf_true])) ha
  · have hframe := advance_frame hs hfixed
    rw [hformat] at hframe
    exact ⟨_, (hexec a).trans (jumpIf_not_taken hc k a s), hframe⟩

/-- Settles O47: JEQ and JNE are `jumpIf` on the Equal flag. -/
theorem equalJumpRules : Obligations.EqualJumpRules := by
  intro s hs
  refine ⟨?jeq, ?jne⟩
  case jeq => exact conditionalJumpRule_of_jumpIf hs rfl rfl (fun a => encodesAs (.jeq a)) fun a => exec_jeq a s
  case jne => exact conditionalJumpRule_of_jumpIf hs rfl rfl (fun a => encodesAs (.jne a)) fun a => exec_jne a s

/-- Settles O48: each relational jump is `jumpIf` on its flags and REL_JUMPS = branch, so with advance it is never taken. -/
theorem relationalJumpRules : Obligations.RelationalJumpRules := by
  intro s hs
  refine ⟨?jgt, ?jlt, ?jle, ?jge⟩
  case jgt => exact conditionalJumpRule_of_jumpIf hs rfl rfl (fun a => encodesAs (.jgt a)) fun a => exec_jgt a s
  case jlt => exact conditionalJumpRule_of_jumpIf hs rfl rfl (fun a => encodesAs (.jlt a)) fun a => exec_jlt a s
  case jle => exact conditionalJumpRule_of_jumpIf hs rfl rfl (fun a => encodesAs (.jle a)) fun a => exec_jle a s
  case jge => exact conditionalJumpRule_of_jumpIf hs rfl rfl (fun a => encodesAs (.jge a)) fun a => exec_jge a s

/-! ### CMP, then a conditional jump -/

/-- What CMP writes to FL (R183): of the bits E, G and L exactly the one of the unsigned relation that holds. -/
theorem compareFlags_bits (u v : Byte) :
    (flagE (compareFlags u v) = true ↔ u.toNat = v.toNat) ∧
      (flagG (compareFlags u v) = true ↔ u.toNat > v.toNat) ∧
      (flagL (compareFlags u v) = true ↔ u.toNat < v.toNat) := by
  rw [compareFlags, flagE, flagG, flagL]
  split
  case isTrue heq => simp [heq]
  case isFalse hne =>
    have hne : u.toNat ≠ v.toNat := mt BitVec.eq_of_toNat_eq hne
    split
    case isTrue hlt => simp [hne, hlt, Nat.le_of_lt hlt]
    case isFalse hge =>
      have hgt : u.toNat > v.toNat := by omega
      simp [hne, hge, hgt]

/-- JNE's condition after CMP: E clear (R152). -/
theorem condNe_compareFlags (u v : Byte) : condNe (compareFlags u v) = true ↔ u.toNat ≠ v.toNat := by
  obtain ⟨hE, -, -⟩ := compareFlags_bits u v
  rw [condNe, Bool.not_eq_true', Bool.eq_false_iff, Ne, hE]

/-- JLE's condition after CMP: L or E (R156). -/
theorem condLe_compareFlags (u v : Byte) : condLe (compareFlags u v) = true ↔ u.toNat ≤ v.toNat := by
  obtain ⟨hE, -, hL⟩ := compareFlags_bits u v
  rw [condLe, Bool.or_eq_true, hL, hE, Nat.le_iff_lt_or_eq]

/-- JGE's condition after CMP: G or E (R157). -/
theorem condGe_compareFlags (u v : Byte) : condGe (compareFlags u v) = true ↔ u.toNat ≥ v.toNat := by
  obtain ⟨hE, hG, -⟩ := compareFlags_bits u v
  rw [condGe, Bool.or_eq_true, hG, hE]
  omega

/-- With REL_JUMPS = branch the condition of a relational jump is the one on its flags (R153). -/
theorem and_relJumps_eq_branch_iff {s : State} (h : s.cfg.relJumps = .branch) {c : Bool} {taken : Prop} (hc : c = true ↔ taken) :
    (c && s.cfg.relJumps == .branch) = true ↔ taken := by
  simpa [h] using hc

/-- A conditional jump on a good register goes to the register's value where the condition says so, and else advances by 2. -/
theorem ConditionalJumpRule.goes {mk : Byte → Instr} {op : Byte} {cond : Byte → Bool} {t : State}
    (h : ConditionalJumpRule mk op cond t) {c : Byte} {k : Fin 8} (hk : Names c k) {taken : Prop}
    (hcond : cond t.fl = true ↔ taken) :
    ∃ w, exec (mk c) t = .next w ∧ (taken → w.pc.toNat = (t.reg k).toNat) ∧ (¬ taken → w.pc.toNat = t.pc.toNat + 2) := by
  obtain ⟨htaken, -, hnot⟩ := h.2 c
  by_cases hc : cond t.fl = true
  · obtain ⟨w, hw, hpc, -⟩ := htaken hc k hk
    exact ⟨w, hw, fun _ => hpc, fun hn => absurd (hcond.1 hc) hn⟩
  · obtain ⟨w, hw, hpc, -⟩ := hnot (Bool.eq_false_of_not_eq_true hc)
    exact ⟨w, hw, fun ht => absurd (hcond.2 ht) hc, fun _ => hpc⟩

/-- Settles O49: the jump rules at the state after CMP, whose FL bits say which relation holds (`compareFlags_bits`). -/
theorem compareThenJump : Obligations.CompareThenJump := by
  intro s t a b c i j k hs hp hi hj hk hcmp
  obtain rfl : (s.setFl (compareFlags (s.reg i) (s.reg j))).advance .cmp = t := by simpa [exec_cmp hi hj] using hcmp
  obtain ⟨hE, hG, hL⟩ := compareFlags_bits (s.reg i) (s.reg j)
  have hpc : (s.nextPc .cmp).toNat = s.pc.toNat + 3 := hs.advanced (t := s.advance .cmp) (k := .cmp) rfl rfl
  have ht : Ready ((s.setFl (compareFlags (s.reg i) (s.reg j))).advance .cmp) := ⟨hs.1, hpc.trans_le hp⟩
  obtain ⟨hjeq, hjne⟩ := equalJumpRules _ ht
  obtain ⟨hjgt, hjlt, hjle, hjge⟩ := relationalJumpRules _ ht
  refine ⟨hjeq.goes hk hE, hjne.goes hk (condNe_compareFlags ..), fun hbranch => ⟨?jgt, ?jlt, ?jle, ?jge⟩⟩
  case jgt => exact hjgt.goes hk (and_relJumps_eq_branch_iff hbranch hG)
  case jlt => exact hjlt.goes hk (and_relJumps_eq_branch_iff hbranch hL)
  case jle => exact hjle.goes hk (and_relJumps_eq_branch_iff hbranch (condLe_compareFlags ..))
  case jge => exact hjge.goes hk (and_relJumps_eq_branch_iff hbranch (condGe_compareFlags ..))

end Sys2Proof.Machine
end

section
/-! SUPPORT. The ALU rules (R171 to R183). ADD to SHR share `binaryAlu` and INC and DEC `unaryAlu`, so each family's rule is proved
once for its shared shape; NOT, MOD and CMP have rules of their own. -/

namespace Sys2Proof.Machine

open Sys2Proof

/-! ### The logic operations as numbers -/

theorem aluAnd_toNat (u v : Byte) : (aluAnd u v).toNat = u.toNat &&& v.toNat := BitVec.toNat_and u v

theorem aluOr_toNat (u v : Byte) : (aluOr u v).toNat = u.toNat ||| v.toNat := BitVec.toNat_or u v

theorem aluXor_toNat (u v : Byte) : (aluXor u v).toNat = u.toNat ^^^ v.toNat := BitVec.toNat_xor u v

/-! ### The two shared shapes keep their rules -/

/-- An instruction whose meaning is `binaryAlu` on an operation keeps the rule of that operation's result (R170). -/
theorem twoRegisterRule_of_binaryAlu {mk : Byte → Byte → Instr} {op : Byte} {result : Nat → Nat → Nat} {k : Mnemonic}
    {f : Byte → Byte → Byte} (hfixed : k.countIsFixed = true) (hformat : k.format = .f2)
    (hencode : ∀ a b, EncodesAs (mk a b) [op, a, b]) (hexec : ∀ a b s, exec (mk a b) s = binaryAlu k f a b s)
    (hresult : ∀ u v, (f u v).toNat = result u.toNat v.toNat) : TwoRegisterRule mk op result := by
  refine ⟨hencode, fun s a b hs => ⟨fun i j hi hj => ?_, fun ha => ?_, fun ha hb => ?_⟩⟩
  · obtain ⟨hreg, hframe⟩ := setReg_advance_frame hs i (f (s.reg i) (s.reg j)) hfixed
    rw [hformat] at hframe
    exact ⟨_, (hexec a b s).trans (binaryAlu_of_names hi hj s k f), by rw [hreg, hresult], hframe⟩
  · exact .of_withRegs_left (hexec a b s) ha
  · exact .of_withRegs_right (hexec a b s) ha hb

/-- An instruction whose meaning is `unaryAlu` on an operation keeps the rule of that operation's result (R174, R175). -/
theorem oneRegisterRule_of_unaryAlu {mk : Byte → Instr} {op : Byte} {result : Nat → Nat} {k : Mnemonic} {f : Byte → Byte}
    (hfixed : k.countIsFixed = true) (hformat : k.format = .f1) (hencode : ∀ a, EncodesAs (mk a) [op, a])
    (hexec : ∀ a s, exec (mk a) s = unaryAlu k f a s) (hresult : ∀ u, (f u).toNat = result u.toNat) :
    OneRegisterRule mk op result := by
  refine ⟨hencode, fun s a hs => ⟨fun i hi => ?_, fun ha => ?_⟩⟩
  · obtain ⟨hreg, hframe⟩ := setReg_advance_frame hs i (f (s.reg i)) hfixed
    rw [hformat] at hframe
    exact ⟨_, (hexec a s).trans (unaryAlu_of_names hi s k f), by rw [hreg, hresult], hframe⟩
  · exact .of_withReg (hexec a s) ha

/-! ### The arithmetic, logic and shift rules -/

/-- Settles O50: ADD, SUB and MUL are `binaryAlu` on the three operations modulo 256. -/
theorem arithmeticRules : Obligations.ArithmeticRules := by
  refine ⟨?add, ?sub, ?mul⟩
  case add => exact twoRegisterRule_of_binaryAlu rfl rfl (fun a b => encodesAs (.add a b)) (fun _ _ _ => rfl) aluAdd_toNat
  case sub => exact twoRegisterRule_of_binaryAlu rfl rfl (fun a b => encodesAs (.sub a b)) (fun _ _ _ => rfl) aluSub_toNat
  case mul => exact twoRegisterRule_of_binaryAlu rfl rfl (fun a b => encodesAs (.mul a b)) (fun _ _ _ => rfl) aluMul_toNat

/-- Settles O52: AND, OR and XOR are `binaryAlu` on the bitwise operations. -/
theorem logicRules : Obligations.LogicRules := by
  refine ⟨?and, ?or, ?xor⟩
  case and => exact twoRegisterRule_of_binaryAlu rfl rfl (fun a b => encodesAs (.and a b)) (fun _ _ _ => rfl) aluAnd_toNat
  case or => exact twoRegisterRule_of_binaryAlu rfl rfl (fun a b => encodesAs (.or a b)) (fun _ _ _ => rfl) aluOr_toNat
  case xor => exact twoRegisterRule_of_binaryAlu rfl rfl (fun a b => encodesAs (.xor a b)) (fun _ _ _ => rfl) aluXor_toNat

/-- Settles O54: SHL and SHR are `binaryAlu` on the product with, and the quotient by, a power of two. -/
theorem shiftRules : Obligations.ShiftRules := by
  refine ⟨?shl, ?shr⟩
  case shl => exact twoRegisterRule_of_binaryAlu rfl rfl (fun a b => encodesAs (.shl a b)) (fun _ _ _ => rfl) aluShl_toNat
  case shr => exact twoRegisterRule_of_binaryAlu rfl rfl (fun a b => encodesAs (.shr a b)) (fun _ _ _ => rfl) aluShr_toNat

/-! ### INC and DEC, and their bytes when they are not admitted -/

/-- The byte of a mnemonic that is not admitted is rejected by name, whatever operand bytes follow (R80, R81). -/
theorem decode_byteOf_of_not_admitted {cfg : Config} (hl : cfg.opcodes.legal = true) {k : Mnemonic}
    (hk : cfg.admits k = false) (a b : Byte) :
    decode cfg (cfg.opcodes.byteOf k) a b = .error (.unknownOpcode (cfg.opcodes.byteOf k)) := by
  simp [decode, OpcodeMap.mnemonicOf_byteOf hl, hk]

/-- A Running core whose fetch reads the byte of a mnemonic that is not admitted raises UnknownOpcode of it (R93, R223). -/
theorem step_of_byte_not_admitted {s : State} (hr : s.run = .running) (hp : s.pc.toNat ≤ 253)
    (hl : s.cfg.opcodes.legal = true) {k : Mnemonic} (hop : s.byteAt 0 = s.cfg.opcodes.byteOf k)
    (hk : s.cfg.admits k = false) : step s = .next (s.faultWith (.unknownOpcode (s.byteAt 0))) := by
  refine step_of_error hr ?_
  have hread : s.mem.read s.pc.toNat = s.cfg.opcodes.byteOf k := hop
  rw [fetchInstr_of_le hp, hop, decodeLatches, hread, decode_byteOf_of_not_admitted hl hk]

/-- Settles O51: INC and DEC are `unaryAlu`; the default map gives them 0x65 and 0x66, which the decoder admits or not. -/
theorem incrementDecrementRules : Obligations.IncrementDecrementRules := by
  refine ⟨?inc, ?dec, fun s hr hp hmap hadmit hop => ?notAdmitted⟩
  case inc => exact oneRegisterRule_of_unaryAlu rfl rfl (fun a => encodesAs (.inc a)) (fun _ _ => rfl) aluInc_toNat
  case dec => exact oneRegisterRule_of_unaryAlu rfl rfl (fun a => encodesAs (.dec a)) (fun _ _ => rfl) aluDec_toNat
  case notAdmitted =>
    have hl : s.cfg.opcodes.legal = true := hmap ▸ OpcodeMap.ls8_legal
    rcases hop with hinc | hdec
    · exact step_of_byte_not_admitted (k := .inc) hr hp hl (by rw [hinc, hmap]; rfl) hadmit
    · exact step_of_byte_not_admitted (k := .dec) hr hp hl (by rw [hdec, hmap]; rfl) hadmit

/-! ### NOT -/

/-- The default advance goes by the instruction's length, also where R79 leaves it open, and does not wrap (R27, R96). -/
theorem Ready.advanced_lenOf {s t : State} (hs : Ready s) {k : Mnemonic} (ht : t.pc = s.nextPc k) :
    Advanced (s.cfg.lenOf k) s t := by
  obtain ⟨hlegal, hp⟩ := hs
  rw [Advanced, ht, nextPc_toNat hlegal hp]

/-- NOT on its source register, which NOT_SOURCE picks (R179). -/
theorem exec_not_of_source {s : State} {a b : Byte} {i j : Fin 8} (hi : Names a i)
    (hsource : s.cfg.notSource = .operandB ∧ Names b j ∨ s.cfg.notSource = .operandA ∧ j = i) :
    exec (.not a b) s = .next ((s.setReg i (aluNot (s.reg j))).advance .not) := by
  rcases hsource with ⟨hB, hj⟩ | ⟨hA, rfl⟩
  · exact exec_not_operandB hi hj s hB
  · exact exec_not_operandA hi b s hA

/-- With NOT_SOURCE = operand_b NOT is a two-operand instruction: it validates both bytes. -/
theorem exec_not_eq_binaryAlu {s : State} (h : s.cfg.notSource = .operandB) (a b : Byte) :
    exec (.not a b) s = binaryAlu .not (fun _ v => aluNot v) a b s := by
  simp only [exec, execNot, h]

/-- With NOT_SOURCE = operand_a NOT is a one-operand instruction: it does not look at the byte at pc+2. -/
theorem exec_not_eq_unaryAlu {s : State} (h : s.cfg.notSource = .operandA) (a b : Byte) :
    exec (.not a b) s = unaryAlu .not aluNot a s := by
  simp only [exec, execNot, h]

/-- Settles O53: NOT writes one register from its source and advances by its length; NOT_SOURCE decides which bytes are checked. -/
theorem notRule : Obligations.NotRule := by
  refine ⟨fun a b => encodesAs (.not a b),
    fun s a b hs => ⟨fun i j hi hsource => ?_, fun ha => ?_, fun ha hb hB => ?_⟩⟩
  · have hadvanced : Advanced (s.cfg.lenOf .not) s ((s.setReg i (aluNot (s.reg j))).advance .not) := hs.advanced_lenOf rfl
    refine ⟨_, exec_not_of_source hi hsource, ?_, fun r hr => State.setReg_reg_ne s _ (List.ne_of_not_mem_cons hr),
      fun _ => rfl, ⟨rfl, rfl, rfl⟩, ⟨rfl, rfl⟩, rfl, hadvanced, fun hmap => ?_⟩
    · rw [State.advance_reg, State.setReg_reg_self, aluNot_toNat]
    · rwa [lenOf_of_ls8 hmap] at hadvanced
  · cases hsource : s.cfg.notSource with
    | operandA => exact .of_withReg (exec_not_eq_unaryAlu hsource a b) ha
    | operandB => exact .of_withRegs_left (exec_not_eq_binaryAlu hsource a b) ha
  · exact .of_withRegs_right (exec_not_eq_binaryAlu hB a b) ha hb

/-! ### MOD -/

/-- Settles O55: MOD writes the remainder (`setReg_advance_frame`) or, on a zero divisor, halts (`haltWith_advance_frame`). -/
theorem modRule : Obligations.ModRule := by
  refine ⟨fun a b => encodesAs (.mod a b), fun s a b hs =>
    ⟨fun i j hi hj hne => ?_, fun i j hi hj hzero => ?_, fun ha => ?_, fun ha hb => ?_⟩⟩
  · obtain ⟨hreg, hframe⟩ := setReg_advance_frame hs i (aluMod (s.reg i) (s.reg j)) (k := .mod) rfl
    exact ⟨_, (exec_mod hi hj s).trans (if_neg hne), by rw [hreg, aluMod_toNat], hframe⟩
  · obtain ⟨-, hregs, hmem, hflags, hout⟩ := haltWith_advance_frame hs.1 hs.2 .modZero .mod
    exact ⟨_, (exec_mod hi hj s).trans (if_pos hzero), rfl, rfl, hregs, hmem, hflags, hout,
      hs.advanced (k := .mod) rfl rfl⟩
  · exact .of_withRegs_left (by rw [exec, execMod]) ha
  · exact .of_withRegs_right (by rw [exec, execMod]) ha hb

/-! ### CMP -/

theorem compareFlags_of_eq {u v : Byte} (h : u.toNat = v.toNat) : compareFlags u v = 0b00000001 :=
  if_pos (BitVec.eq_of_toNat_eq h)

theorem compareFlags_of_lt {u v : Byte} (h : u.toNat < v.toNat) : compareFlags u v = 0b00000100 := by
  have hne : u ≠ v := fun e => Nat.ne_of_lt h (congrArg BitVec.toNat e)
  rw [compareFlags, if_neg hne, if_pos h]

theorem compareFlags_of_gt {u v : Byte} (h : v.toNat < u.toNat) : compareFlags u v = 0b00000010 := by
  have hne : u ≠ v := fun e => Nat.ne_of_gt h (congrArg BitVec.toNat e)
  rw [compareFlags, if_neg hne, if_neg (Nat.lt_asymm h)]

/-- Settles O56: CMP writes `compareFlags` to FL and advances; operand_a is checked before operand_b (D11). -/
theorem compareRule : Obligations.CompareRule := by
  refine ⟨fun a b => encodesAs (.cmp a b), fun s a b hs => ⟨fun i j hi hj => ?_, fun ha => ?_, fun ha hb => ?_⟩⟩
  · exact ⟨_, exec_cmp hi hj s, compareFlags_of_eq, compareFlags_of_lt, compareFlags_of_gt, fun _ _ => rfl, fun _ => rfl,
      rfl, rfl, ⟨rfl, rfl⟩, rfl, hs.advanced (k := .cmp) rfl rfl⟩
  · exact .of_withRegs_left (by rw [exec, execCmp]) ha
  · exact .of_withRegs_right (by rw [exec, execCmp]) ha hb

end Sys2Proof.Machine
end

section
/-! SUPPORT. The system rules: HLT (R210) and the reserved identifiers INT and IRET (R211, R212), which only advance. -/

namespace Sys2Proof.Machine

open Sys2Proof

/-- Settles O57: HLT is the halt of `haltWith_advance_frame`, no step leaves it, and a pc of 254 or 255 faults in the fetch. -/
theorem haltRule : Obligations.HaltRule := by
  refine ⟨encodesAs .hlt, fun s hs => ⟨?halts, fun hr p hp => ?faults⟩⟩
  case halts =>
    obtain ⟨-, hregs, hmem, hflags, hout⟩ := haltWith_advance_frame hs.1 hs.2 .hlt .hlt
    have hstopped : ((s.haltWith .hlt).advance .hlt).run ≠ .running := RunState.noConfusion
    exact ⟨_, exec_hlt s, rfl, rfl, hregs, hmem, hflags, hout, hs.advanced (k := .hlt) rfl rfl,
      reaches_self_of_not_running hstopped⟩
  case faults =>
    rcases hp with rfl | rfl
    · exact step_of_byte_pc_ge (s := { s with pc := 254 }) (v := 254) rfl hr (Nat.le_refl 254)
    · exact step_of_byte_pc_ge (s := { s with pc := 255 }) (v := 255) rfl hr (Nat.le_succ 254)

/-- The default advance alone by the length of any mnemonic, which under the default map is that of its format (R74, R96). -/
theorem advance_frame_lenOf {s : State} (hs : Ready s) (k : Mnemonic) :
    let t := s.advance k
    SameRegs [] s t ∧ SameMem s t ∧ SameFlags s t ∧ SameRun s t ∧ t.out = s.out ∧ Advanced (s.cfg.lenOf k) s t ∧
      (s.cfg.opcodes = .ls8 → Advanced (k.format.operandCount + 1) s t) := by
  have hadvanced : Advanced (s.cfg.lenOf k) s (s.advance k) := hs.advanced_lenOf rfl
  exact ⟨fun _ _ => rfl, fun _ => rfl, ⟨rfl, rfl, rfl⟩, ⟨rfl, rfl⟩, rfl, hadvanced,
    fun hmap => lenOf_of_ls8 hmap k ▸ hadvanced⟩

/-- Settles O58: INT and IRET are the default advance alone, by the length their byte gives (`advance_frame_lenOf`). -/
theorem reservedIdentifierRules : Obligations.ReservedIdentifierRules := by
  refine ⟨fun a => encodesAs (.int a), encodesAs .iret, fun s a hs => ⟨?int, ?iret⟩⟩
  case int => exact ⟨_, exec_int a s, advance_frame_lenOf hs .int⟩
  case iret => exact ⟨_, exec_iret s, advance_frame_lenOf hs .iret⟩

end Sys2Proof.Machine
end

section
/-! SUPPORT. Faults and stops (R220 to R230): the load errors, what raises each cause, that a fault is precise, and what the
ports show of a stop. -/

namespace Sys2Proof.Machine

open Sys2Proof

/-! ### Which operands an instruction checks -/

/-- An answer that raises no fault: run state and stop cause are kept, or the core halts. -/
def NoFault (s : State) (r : Result) : Prop :=
  ∃ t, r = .next t ∧ (SameRun s t ∨ t.run = .halted ∧ ∃ c, t.stop = .halt c)

theorem NoFault.of_sameRun {s t : State} (h : SameRun s t) : NoFault s (.next t) := ⟨t, rfl, .inl h⟩

/-- The answers that apply RegIdx to the given operand bytes, operand_a first, and else raise no fault (R11, D11). -/
inductive ChecksOperands (s : State) : Option Byte → Option Byte → Result → Prop where
  | neither {r : Result} (h : NoFault s r) : ChecksOperands s none none r
  | one {a : Byte} {k : Fin 8 → Result} (h : ∀ i, NoFault s (k i)) : ChecksOperands s (some a) none (withReg a s k)
  | both {a b : Byte} {k : Fin 8 → Fin 8 → Result} (h : ∀ i j, NoFault s (k i j)) :
      ChecksOperands s (some a) (some b) (withRegs a b s k)

theorem ChecksOperands.unaryAlu {s : State} {k : Mnemonic} {f : Byte → Byte} {a : Byte} :
    ChecksOperands s (some a) none (unaryAlu k f a s) :=
  .one fun _ => .of_sameRun ⟨rfl, rfl⟩

theorem ChecksOperands.binaryAlu {s : State} {k : Mnemonic} {f : Byte → Byte → Byte} {a b : Byte} :
    ChecksOperands s (some a) (some b) (binaryAlu k f a b s) :=
  .both fun _ _ => .of_sameRun ⟨rfl, rfl⟩

theorem ChecksOperands.takeJump {s : State} {a : Byte} : ChecksOperands s (some a) none (takeJump a s) :=
  .one fun _ => .of_sameRun ⟨rfl, rfl⟩

/-- A conditional jump checks its operand exactly when it is taken (R151). -/
theorem ChecksOperands.jumpIf {i : Instr} {s : State} {k : Mnemonic} {c : Bool} {a : Byte} (hc : dereferences i s = c)
    (hA : i.mnemonic.useA = .register) (hB : i.mnemonic.useB s.cfg.notSource ≠ .register) (ha : i.operands = [a]) :
    ChecksOperands s (registerA i s) (registerB i s) (jumpIf k c a s) := by
  cases c with
  | false =>
    simp only [registerA, registerB, hc]
    exact .neither (.of_sameRun ⟨rfl, rfl⟩)
  | true =>
    simp only [registerA, registerB, hc, hA, hB, ha]
    exact .takeJump

/-- Every instruction checks the operands it dereferences, and these only (R222). -/
theorem exec_checksOperands (i : Instr) (s : State) :
    ChecksOperands s (registerA i s) (registerB i s) (exec i s) := by
  cases i with
  | hlt => exact .neither ⟨_, rfl, .inr ⟨rfl, _, rfl⟩⟩
  | ret | iret | int a => exact .neither (.of_sameRun ⟨rfl, rfl⟩)
  | push a | pop a | call a | prn a | pra a | ldi a b =>
    simp only [exec, execPush, execPop, execCall, execPrn, execPra, emitReg, execLdi]
    exact .one fun _ => .of_sameRun ⟨rfl, rfl⟩
  | ld a b | st a b | cmp a b =>
    simp only [exec, execLd, execSt, execCmp]
    exact .both fun _ _ => .of_sameRun ⟨rfl, rfl⟩
  | jmp a => exact .takeJump
  | jeq a | jne a => exact .jumpIf rfl rfl nofun rfl
  | jgt a => exact exec_jgt a s ▸ .jumpIf rfl rfl nofun rfl
  | jlt a => exact exec_jlt a s ▸ .jumpIf rfl rfl nofun rfl
  | jle a => exact exec_jle a s ▸ .jumpIf rfl rfl nofun rfl
  | jge a => exact exec_jge a s ▸ .jumpIf rfl rfl nofun rfl
  | inc a | dec a => exact .unaryAlu
  | add a b | sub a b | mul a b | and a b | or a b | xor a b | shl a b | shr a b => exact .binaryAlu
  | not a b =>
    cases h : s.cfg.notSource with
    | operandA =>
      have hB : registerB (.not a b) s = none := by simp [registerB, Instr.mnemonic, Mnemonic.useB, h]
      rw [exec_not_eq_unaryAlu h, hB]
      exact .unaryAlu
    | operandB =>
      have hB : registerB (.not a b) s = some b := by
        simp [registerB, dereferences, Instr.mnemonic, Mnemonic.useB, Instr.operands, h]
      rw [exec_not_eq_binaryAlu h, hB]
      exact .binaryAlu
  | mod a b =>
    simp only [exec, execMod]
    refine .both fun i j => ?_
    split
    · exact ⟨_, rfl, .inr ⟨rfl, _, rfl⟩⟩
    · exact .of_sameRun ⟨rfl, rfl⟩

/-- A bad operand_a is raised, whatever operand_b is (D11). -/
theorem ChecksOperands.raises_left {s : State} {ra rb : Option Byte} {r : Result} (h : ChecksOperands s ra rb r) {a : Byte}
    (hra : ra = some a) (ha : 8 ≤ a.toNat) : r = .next (s.faultWith (.outOfRangeReg a)) := by
  subst hra
  cases h with
  | one => exact withReg_of_ge ha s _
  | both => exact withRegs_of_ge_left ha _ s _

/-- A bad operand_b is raised when no bad operand_a is checked before it (D11). -/
theorem ChecksOperands.raises_right {s : State} {ra rb : Option Byte} {r : Result} (h : ChecksOperands s ra rb r) {b : Byte}
    (hrb : rb = some b) (hb : 8 ≤ b.toNat) (ha : ∀ a, ra = some a → a.toNat < 8) :
    r = .next (s.faultWith (.outOfRangeReg b)) := by
  subst hrb
  cases h with
  | both => exact withRegs_of_ge_right (ha _ rfl) hb s _

theorem ChecksOperands.noFault {s : State} {ra rb : Option Byte} {r : Result} (h : ChecksOperands s ra rb r)
    (ha : ∀ a, ra = some a → a.toNat < 8) (hb : ∀ b, rb = some b → b.toNat < 8) : NoFault s r := by
  cases h with
  | neither h => exact h
  | one h => exact withReg_of_names (i := ⟨_, ha _ rfl⟩) rfl s _ ▸ h _
  | both h => exact withRegs_of_names (i := ⟨_, ha _ rfl⟩) (j := ⟨_, hb _ rfl⟩) rfl rfl s _ ▸ h _ _

/-- Settles O15: the checks of `exec_checksOperands` raise on a bad byte, and without one no fault is raised. -/
theorem badRegisterOperandsFault : Obligations.BadRegisterOperandsFault := by
  intro i s
  have hchecks := exec_checksOperands i s
  refine ⟨fun _ => hchecks.raises_left, fun _ => hchecks.raises_right, fun t ht ha hb byte hstop => ?_⟩
  obtain ⟨u, hu, hcases⟩ := hchecks.noFault ha hb
  obtain rfl : u = t := by simpa [hu] using ht
  rcases hcases with ⟨-, hsame⟩ | ⟨-, c, hhalt⟩
  · exact hsame.symm
  · simp [hhalt] at hstop

/-! ### What raises a fault of fetch and decode -/

/-- A step that records a fault raised it in fetch or decode, or it is OutOfRange(reg). -/
theorem step_fault_cases {s t : State} {c : FaultCause} (hs : s.stop = .none) (h : step s = .next t)
    (ht : t.stop = .fault c) : fetchInstr s = .error c ∨ ∃ b, c = .outOfRangeReg b := by
  rcases step_next_cases h with ⟨_, rfl⟩ | ⟨_, d, hd, rfl⟩ | ⟨_, i, _, hex⟩
  · simp [hs] at ht
  · obtain rfl : d = c := by simpa using ht
    exact .inl hd
  · rcases exec_next_cases hex with ⟨b, _, rfl⟩ | hdone
    · exact .inr ⟨b, by simpa [eq_comm] using ht⟩
    · rcases hdone.run with ⟨_, e⟩ | ⟨_, _, e⟩ <;> simp [e, hs] at ht

/-- Settles O13: a fetch above 253 faults at the first address above 255, and no other fault is OutOfRange(mem). -/
theorem fetchPastTheEndFaults : Obligations.FetchPastTheEndFaults := by
  refine fun s hr => ⟨fun addr hp haddr hfirst => ?raises, fun t addr hs h ht => ?only⟩
  case raises =>
    have hmax : max s.pc.toNat 256 = addr := by omega
    exact step_of_error hr (hmax ▸ fetchInstr_of_gt hp)
  case only =>
    rcases step_fault_cases hs h ht with hfetch | ⟨b, hb⟩
    · rcases fetchInstr_error_cases hfetch with ⟨hp, _⟩ | ⟨_, hop, _⟩
      · exact hp
      · exact nomatch hop
    · exact nomatch hb

/-- All that fetch and decode can answer at 253 or below: an instruction, the byte at pc being an admitted mnemonic's, or
UnknownOpcode of that byte (R93). -/
theorem fetchInstr_cases_of_le {s : State} (hp : s.pc.toNat ≤ 253) (hl : s.cfg.opcodes.legal = true) :
    (∃ k i, s.cfg.admits k = true ∧ s.cfg.opcodes.byteOf k = s.byteAt 0 ∧ fetchInstr s = .ok i) ∨
      ((∀ k, s.cfg.admits k = true → s.cfg.opcodes.byteOf k ≠ s.byteAt 0) ∧
        fetchInstr s = .error (.unknownOpcode (s.byteAt 0))) := by
  rcases decode_cases hl (s.byteAt 0) (s.byteAt 1) (s.byteAt 2) with ⟨k, hk, hop, e⟩ | ⟨hne, e⟩
  · exact .inl ⟨k, _, hk, hop, fetchInstr_of_decode hp e⟩
  · refine .inr ⟨hne, ?_⟩
    simp only [State.byteAt, Nat.add_zero] at e
    simp only [fetchInstr_of_le hp, decodeLatches, e, State.byteAt, Nat.add_zero]

/-- Settles O14: the two answers of `fetchInstr_cases_of_le` are told apart by the byte being admitted. -/
theorem unadmittedOpcodeFaults : Obligations.UnadmittedOpcodeFaults := by
  refine fun s hr hp hl => ⟨fun hne => ?raises, fun t q hs h ht => ?only⟩
  case raises =>
    rcases fetchInstr_cases_of_le hp hl with ⟨k, _, hk, hop, _⟩ | ⟨_, e⟩
    · exact absurd hop (hne k hk)
    · exact step_of_error hr e
  case only =>
    rcases step_fault_cases hs h ht with hfetch | ⟨b, hb⟩
    · rcases fetchInstr_cases_of_le hp hl with ⟨_, i, _, _, e⟩ | ⟨hne, e⟩
      · simp [e] at hfetch
      · have hq : s.byteAt 0 = q := by simpa [e] using hfetch
        exact ⟨hq.symm, hne⟩
    · exact nomatch hb

/-! ### A fault is precise -/

/-- Settles O17: of the effects of a step (`step_effect_cases`) only `State.faultWith` leaves a Running core Faulted. -/
theorem faultsArePrecise : Obligations.FaultsArePrecise := by
  intro s t hr h ht
  rcases step_effect_cases h with ⟨hrest, _⟩ | ⟨_, c, rfl, _⟩ | ⟨_, i, _, hdone⟩
  · exact absurd hr hrest
  · exact ⟨c, rfl⟩
  · rcases hdone.run with ⟨e, _⟩ | ⟨e, _⟩ <;> simp [e, hr] at ht

/-! ### Load errors -/

theorem hostLoad_of_too_long {s : State} (hr : s.run = .idle) {image : List Byte} (h : 256 < image.length) :
    hostLoad image s = .fault .imageTooLong := by
  rw [hostLoad, if_pos hr, if_neg (by simpa [memSize] using h)]

theorem hostLoadFile_of_parse_error {text : List Char} {e : Fault} (h : parseImage text = .error e) (s : State) :
    hostLoadFile (some text) s = .fault e := by
  simp only [hostLoadFile, h]

theorem hostLoadFile_of_parse_ok {text : List Char} {image : List Byte} (h : parseImage text = .ok image) (s : State) :
    hostLoadFile (some text) s = hostLoad image s := by
  simp only [hostLoadFile, h]

/-- A load error raises no start: boot answers it (R258). -/
theorem hostBoot_of_load_fault {file : Option (List Char)} {s : State} {e : Fault}
    (h : hostLoadFile file (State.resetWith s.cfg) = .fault e) : hostBoot file s = .fault e := by
  rw [hostBoot, h]

/-- Settles O9: an Idle core answers the load error, and boot loads into the Idle core that reset leaves. -/
theorem loadErrorsKeepTheCoreIdle : Obligations.LoadErrorsKeepTheCoreIdle := by
  intro s file e hr herr
  have hload : ∀ u : State, u.run = .idle → hostLoadFile file u = .fault e := by
    intro u hu
    rcases herr with ⟨rfl, rfl⟩ | ⟨text, rfl, hparse⟩ | ⟨text, image, rfl, hparse, hlong, rfl⟩
    · rfl
    · exact hostLoadFile_of_parse_error hparse u
    · exact (hostLoadFile_of_parse_ok hparse u).trans (hostLoad_of_too_long hu hlong)
  have hafter : afterHost s (hostLoadFile file s) = s := by rw [hload s hr, afterHost]
  exact ⟨hload s hr, hostBoot_of_load_fault (hload _ rfl), hafter, by rwa [hafter]⟩

/-! ### The ports of a stopped core -/

theorem stopAgrees_idle_iff {cfg : Config} {stop : StopCause} : stopAgrees cfg .idle stop = true ↔ stop = .none := by
  cases stop <;> simp [stopAgrees]

theorem stopAgrees_running_iff {cfg : Config} {stop : StopCause} : stopAgrees cfg .running stop = true ↔ stop = .none := by
  cases stop <;> simp [stopAgrees]

theorem stopAgrees_halted_iff {cfg : Config} {stop : StopCause} :
    stopAgrees cfg .halted stop = true ↔ ∃ c, stop = .halt c := by
  cases stop <;> simp [stopAgrees]

/-- The three faults, with their info as R220's table gives it. -/
theorem stopAgrees_faulted_iff {cfg : Config} {stop : StopCause} :
    stopAgrees cfg .faulted stop = true ↔
      stop = .fault (.outOfRangeMem 256) ∨ (∃ byte : Byte, 8 ≤ byte.toNat ∧ stop = .fault (.outOfRangeReg byte)) ∨
        ∃ op, admittedOpcode cfg op = false ∧ stop = .fault (.unknownOpcode op) := by
  cases stop with
  | none => simp [stopAgrees]
  | halt c => simp [stopAgrees]
  | fault c => cases c <;> simp [stopAgrees]

/-- Settles O33: the invariant gives the stop cause each run state allows (`stopAgrees`), and the ports are its codes. -/
theorem portsShowTheStopCause : Obligations.PortsShowTheStopCause := by
  rintro s ⟨-, -, -, -, hagrees⟩
  simp only [State.ports]
  refine ⟨fun hr => ?idle, fun hr => ?running, fun hr => ?halted, fun hr => ?faulted⟩ <;> rw [hr] at hagrees ⊢
  case idle =>
    rw [stopAgrees_idle_iff.1 hagrees]
    exact ⟨rfl, rfl, rfl⟩
  case running =>
    rw [stopAgrees_running_iff.1 hagrees]
    exact ⟨rfl, rfl, rfl⟩
  case halted =>
    obtain ⟨c, e⟩ := stopAgrees_halted_iff.1 hagrees
    rw [e]
    cases c with
    | hlt => exact ⟨rfl, rfl, .inl ⟨rfl, rfl⟩⟩
    | modZero => exact ⟨rfl, rfl, .inr ⟨rfl, rfl⟩⟩
  case faulted =>
    rcases stopAgrees_faulted_iff.1 hagrees with e | ⟨byte, hge, e⟩ | ⟨op, -, e⟩ <;> rw [e]
    · exact ⟨rfl, .inl ⟨rfl, rfl, rfl⟩⟩
    · exact ⟨rfl, .inr (.inl ⟨byte, rfl, rfl, hge, BitVec.toNat_setWidth_of_le (by decide)⟩)⟩
    · exact ⟨rfl, .inr (.inr ⟨op, rfl, rfl, BitVec.toNat_setWidth_of_le (by decide)⟩)⟩

end Sys2Proof.Machine
end

section
/-! SUPPORT. Reset, load and start as the host gives them (R250 to R257): what each answers, that an accepted host action keeps the
invariant, and that a step under the software's discipline (R263) raises no fault. -/

namespace Sys2Proof.Machine

open Sys2Proof

/-! ### Reset -/

theorem resetWith_inv {cfg : Config} (h : cfg.opcodes.legal = true) : (State.resetWith cfg).Inv :=
  ⟨h, State.resetWith_wf cfg, Nat.zero_le 256, .inl rfl, rfl⟩

/-- Settles O21: `resetWith_inv`, at any legal map and at the default one. -/
theorem resetMeetsTheInvariant : Obligations.ResetMeetsTheInvariant :=
  ⟨fun _ => resetWith_inv, resetWith_inv OpcodeMap.ls8_legal⟩

/-- Settles O6: the registers by the laws of `State.resetWith`, every other item as it is written there. -/
theorem resetLeavesTheListedState : Obligations.ResetLeavesTheListedState :=
  fun s => ⟨State.resetWith s.cfg, rfl, State.resetWith_sp s.cfg, State.resetWith_reg s.cfg, rfl, rfl, rfl, rfl, rfl, rfl, rfl,
    Memory.read_nil, rfl⟩

/-! ### Start -/

theorem hostStart_of_idle {s : State} (hr : s.run = .idle) : hostStart s = .next { s with run := .running } := by
  simp [hostStart, hr]

theorem hostStart_of_stopped {s : State} (hr : s.run = .halted ∨ s.run = .faulted) : hostStart s = .next s := by
  rcases hr with hr | hr <;> simp [hostStart, hr]

/-- Settles O7: one equation for each run state; reset leaves an Idle core at pc = 0. -/
theorem startRunsOnlyFromIdle : Obligations.StartRunsOnlyFromIdle := by
  refine fun s => ⟨hostStart_of_idle, fun t u hreset hstart => ?afterReset, hostStart_of_stopped, hostStart_of_running⟩
  case afterReset =>
    obtain rfl : State.resetWith s.cfg = t := by simpa [hostReset] using hreset
    obtain rfl := Host.Outcome.next.inj ((hostStart_of_idle rfl).symm.trans hstart)
    exact ⟨rfl, rfl⟩

/-! ### Load and write -/

theorem hostLoad_of_fits {s : State} (hr : s.run = .idle) {image : List Byte} (h : image.length ≤ memSize) :
    hostLoad image s = .next { s with mem := memoryOfImage image } := by
  rw [hostLoad, if_pos hr, if_pos h]

theorem hostWrite_of_idle {s : State} (hr : s.run = .idle) (addr v : Byte) : hostWrite addr v s = .next (s.store addr v) :=
  if_pos hr

/-- Settles O8: the new memory is `memoryOfImage`, which reads the image's bytes and 0 above (`read_memoryOfImage`). -/
theorem loadPlacesTheImage : Obligations.LoadPlacesTheImage := by
  intro s image hr hlen
  refine ⟨_, hostLoad_of_fits hr hlen, fun k hk => ?image, fun k hk _ => ?above, wf_memoryOfImage hlen, rfl⟩
  case image => exact (read_memoryOfImage image k).trans (List.getD_eq_getElem image 0 hk)
  case above => exact (read_memoryOfImage image k).trans (List.getD_eq_default image 0 hk)

/-! ### The invariant under host actions -/

theorem hostLoad_next_cases {s t : State} {image : List Byte} (h : hostLoad image s = .next t) :
    (memoryOfImage image).wf ∧ t = { s with mem := memoryOfImage image } := by
  by_cases hr : s.run = .idle
  · rcases Nat.lt_or_ge 256 image.length with hlen | hlen
    · simp [hostLoad_of_too_long hr hlen] at h
    · exact ⟨wf_memoryOfImage hlen, by simpa [hostLoad_of_fits hr hlen, eq_comm] using h⟩
  · simp [hostLoad_of_not_idle hr] at h

theorem hostWrite_next_cases {s t : State} {addr v : Byte} (h : hostWrite addr v s = .next t) : t = s.store addr v := by
  by_cases hr : s.run = .idle
  · simpa [hostWrite_of_idle hr, eq_comm] using h
  · simp [hostWrite_of_not_idle hr] at h

theorem hostStart_next_cases {s t : State} (h : hostStart s = .next t) :
    (s.run = .idle ∧ t = { s with run := .running }) ∨ t = s := by
  cases hr : s.run with
  | idle => exact .inl ⟨rfl, by simpa [hostStart_of_idle hr, eq_comm] using h⟩
  | running => simp [hostStart_of_running hr] at h
  | halted => exact .inr (by simpa [hostStart_of_stopped (.inl hr), eq_comm] using h)
  | faulted => exact .inr (by simpa [hostStart_of_stopped (.inr hr), eq_comm] using h)

theorem State.Inv.withMem {s : State} (h : s.Inv) {m : Memory} (hm : m.wf) : State.Inv { s with mem := m } := by
  obtain ⟨hlegal, -, hpc, hfl, hagrees⟩ := h
  exact ⟨hlegal, hm, hpc, hfl, hagrees⟩

/-- An Idle core has no stop cause, as a Running one must have none (R31). -/
theorem State.Inv.started {s : State} (h : s.Inv) (hr : s.run = .idle) : State.Inv { s with run := .running } := by
  obtain ⟨hlegal, hmem, hpc, hfl, hagrees⟩ := h
  rw [hr] at hagrees
  exact ⟨hlegal, hmem, hpc, hfl, stopAgrees_running_iff.2 (stopAgrees_idle_iff.1 hagrees)⟩

/-- Settles O22, by cases on the action: a reset state meets the invariant, load and write leave a canonical memory, start keeps
the stop cause or the whole state. -/
theorem hostActionsKeepTheInvariant : Obligations.HostActionsKeepTheInvariant := by
  intro a s t hs h
  have ⟨hlegal, hmem, _⟩ := hs
  cases a with
  | reset =>
    obtain rfl : State.resetWith s.cfg = t := by simpa [hostStep, hostReset] using h
    exact resetWith_inv hlegal
  | load image =>
    obtain ⟨hwf, rfl⟩ := hostLoad_next_cases h
    exact hs.withMem hwf
  | write addr v =>
    obtain rfl := hostWrite_next_cases h
    exact hs.withMem (State.store_wf hmem addr v)
  | start =>
    rcases hostStart_next_cases h with ⟨hr, rfl⟩ | rfl
    · exact hs.started hr
    · exact hs

/-! ### Software's discipline -/

/-- An operand byte that is checked as a register is one, when the instruction's indices are valid (R263 (b), (c)). -/
theorem isRegIndex_of_checked {taken : Bool} {use : OperandUse} {operands : List Byte} {n : Nat} {b : Byte}
    (hvalid : use = .register → isRegIndex (operands.getD n 0))
    (h : (if taken ∧ use = .register then operands[n]? else none) = some b) : isRegIndex b := by
  obtain ⟨⟨-, huse⟩, hop⟩ : (taken = true ∧ use = .register) ∧ operands[n]? = some b := by simpa using h
  simpa [List.getD_eq_getElem?_getD, hop] using hvalid huse

/-- Settles O32: the step executes an instruction whose register bytes all pass their check, so it raises no fault. -/
theorem disciplinedStepsDoNotFault : Obligations.DisciplinedStepsDoNotFault := by
  rintro s t hr ⟨hp, i, hdecode, hvalidA, hvalidB⟩ hstep
  have hexec : exec i s = .next t := (step_of_ok hr (fetchInstr_of_decode hp hdecode)).symm.trans hstep
  obtain ⟨u, hu, hcases⟩ := (exec_checksOperands i s).noFault (fun _ => isRegIndex_of_checked hvalidA)
    (fun _ => isRegIndex_of_checked hvalidB)
  obtain rfl : u = t := by simpa [hu] using hexec
  rcases hcases with ⟨hrun, -⟩ | ⟨hrun, -⟩ <;> simp [hrun, hr]

end Sys2Proof.Machine
end
